-- ==== Sys2Proof/Word.lean ====
section
/-!
DEFINITION. The widths of the encoder's data (spec 00_scope.md section 5.1): bytes, 4-bit Values and nibbles, and the 16-bit packet word.
Everything is unsigned.
-/
namespace Sys2Proof

/-- One byte of a command, bit 7 most significant (00_scope.md section 5.1). -/
abbrev Byte := BitVec 8

/-- A Value, a cache cell or a nibble: four bits, 0..15 (R7 `VALUE_BITS`, R21). -/
abbrev Value := BitVec 4

/-- The packet word `W = N1 ‖ N2 ‖ N3 ‖ L` (R63). -/
abbrev PacketWord := BitVec 16

end Sys2Proof
end

