-- ==== Sys2Proof/Syntax.lean ====
section
/-!
DEFINITION. The operations of the encoder, one constructor per row of spec/opcode_table.json, and the requests that start them.
-/
namespace Sys2Proof

/-- The two outputs of a channel (R7 `N_PORTS`, glossary Port). -/
inductive Port where
  | a
  | b
deriving DecidableEq, Repr

/-- The rows of the operation table.
The command rows carry the delivered bytes, unmasked (R66); internal operations carry their call operands (R77). -/
inductive Instr where
  /-- APPLY.A, format CMD3: bytes `channel, 0, value` (R60, R120). -/
  | applyA3 (channel value : Byte)
  /-- APPLY.B, format CMD3: bytes `channel, 1, value` (R60, R120). -/
  | applyB3 (channel value : Byte)
  /-- APPLY.A, format CMD4: bytes `channel, 0, value, mode` (R61, R120). -/
  | applyA4 (channel value mode : Byte)
  /-- APPLY.B, format CMD4: bytes `channel, 1, value, mode` (R61, R120). -/
  | applyB4 (channel value mode : Byte)
  /-- APPLY.REJECT: a command of another length, or with a port byte 2..255 (R71, R121). -/
  | applyReject (bytes : List Byte)
  /-- REFRESH_ALL, started by a tick (R62, R126). -/
  | refreshAll
  /-- RESET: construction of the encoder (R170). -/
  | reset
  /-- SEND_CHANNEL (R124): channel, repeats, delay in milliseconds. -/
  | sendChannel (channel repeats delay : Nat)
  /-- ENCODE_AND_SEND (R100): channel, output B, output A, in that order. -/
  | encodeAndSend (channel : Nat) (outB outA : Byte)
  /-- GET (R111). -/
  | get (channel : Nat) (port : Port)
  /-- SET (R112): channel and value as delivered, 0..255. -/
  | set (channel : Byte) (port : Port) (value : Byte)
  /-- NIBBLE (R93). -/
  | nibble (n : Value)
  /-- BIT (R92). -/
  | bit (v : Bool)
  /-- SYMBOL (R91): the pause in carrier cycles. -/
  | symbol (p : Nat)
  /-- MARK (R90). -/
  | mark
  /-- PKT.COMBO_PWM, the packet on the wire `01ccBBBBAAAALLLL` (R63, R65): channel code, output B, output A, checksum. -/
  | pktComboPwm (code : BitVec 2) (outB outA check : Value)
  /-- SYM.SS, the start/stop symbol (R64). -/
  | symSS
  /-- SYM.B0, the symbol of a data bit 0 (R64). -/
  | symB0
  /-- SYM.B1, the symbol of a data bit 1 (R64). -/
  | symB1
deriving DecidableEq, Repr

/-- What can be put before an idle encoder.
`command`, `tick` and `reset` are what the environment can do (R77, R147, R170).
`call` runs one operation directly, the program notation of R75 for internal operations (log entry 2). -/
inductive Request where
  | command (bytes : List Byte)
  | tick
  | reset
  | call (i : Instr)
deriving DecidableEq, Repr

/-- The environment can make this request of a real encoder (R77, R128). -/
def Request.external : Request → Bool
  | .command _ => true
  | .tick => true
  | .reset => true
  | .call _ => false

/-- The operation is one that an input selects from outside (R77): a command, a tick, construction. -/
def Instr.external : Instr → Bool
  | .applyA3 _ _ => true
  | .applyB3 _ _ => true
  | .applyA4 _ _ _ => true
  | .applyB4 _ _ _ => true
  | .applyReject _ => true
  | .refreshAll => true
  | .reset => true
  | .sendChannel _ _ _ => false
  | .encodeAndSend _ _ _ => false
  | .get _ _ => false
  | .set _ _ _ => false
  | .nibble _ => false
  | .bit _ => false
  | .symbol _ => false
  | .mark => false
  | .pktComboPwm _ _ _ _ => false
  | .symSS => false
  | .symB0 => false
  | .symB1 => false

end Sys2Proof
end

