-- ==== Sys2Proof/Machine/State.lean ====
section
/-!
DEFINITION. The encoder's state (R20 to R30), the reasons it can refuse, and the state after reset (R30).
-/
namespace Sys2Proof.Machine

/-- The level of the output pin (R22): low is 0, high is 1 and means carrier on. -/
inductive Level where
  | low
  | high
deriving DecidableEq, Repr

/-- One event of a trace (R13): the pin high for one `T_HALF`, low for one `T_HALF`, or low for some milliseconds. -/
inductive Event where
  | H
  | L
  | D (ms : Nat)
deriving DecidableEq, Repr

/-- Why a command is rejected (R140 to R145). -/
inductive Reason where
  | invalidChannel
  | invalidValue
  | invalidPort
  | invalidMode
  | invalidLength
deriving DecidableEq, Repr

/-- What an operation hands back to its caller (R14); `value` is what GET returns (R111). -/
inductive Result where
  | ok
  | value (v : Value)
  | fail (r : Reason)
deriving DecidableEq, Repr

/-- The two cells of one channel (R21). -/
structure ChannelState where
  outputA : Value
  outputB : Value
deriving DecidableEq, Repr

/-- The Channel State Cache: four records, index 0..3 for channels 1..4 (R21). -/
abbrev Cache := Vector ChannelState 4

/-- The triple that the diagnostic echo `LAST` holds (R29). -/
structure Applied where
  channel : Byte
  port : Port
  value : Value
deriving DecidableEq, Repr

/-- The encoder has no fault: every failure is a rejection with a result, and no failure path ends the machine (R140, R188).
Nobody raises one, which is safe only because the spec says so in those words. -/
inductive Fault where
deriving DecidableEq, Repr

/-- What the model gives no meaning to. -/
inductive Refusal where
  /-- Raised by an arm of `exec` whose operation has no meaning yet; safe. No arm raises it now. -/
  | notModelled (mnemonic : String)
  /-- Raised by APPLY (all five rows) and REFRESH_ALL when the encoder is busy: a request is accepted only when idle (R147, R175; U6 `refuse`).
  Safe: `step` never does this, it leaves the request waiting. -/
  | busy
  /-- Raised by RESET when the encoder is busy (R172: a model refuses it); safe. `step` never does this. -/
  | resetWhileBusy
  /-- Raised by ENCODE_AND_SEND for a channel outside 1..4, its precondition (R101: refuse, with no trace); safe. -/
  | channelPrecondition
  /-- Raised by PKT.COMBO_PWM for a word with a wrong checksum, which the encoder never sends (R72; U14 `refuse`); safe. -/
  | packetChecksum
deriving DecidableEq, Repr

/-- The state. `cache`, `pin`, `last` and `pending` are the encoder's own (R20).
`requests`, `results` and `emitted` are the environment's side of it, the model's own fields (R147, R187, R188; log entry 1). -/
structure State where
  /-- The Channel State Cache, eight 4-bit cells (R21). -/
  cache : Cache
  /-- The level of the output pin (R22). -/
  pin : Level
  /-- The events of the operation in progress that are not yet emitted, next one first (R24). -/
  pending : List Event
  /-- The diagnostic echo register `LAST` (R29); it stays `none` where `HAS_ECHO` is false. -/
  last : Option Applied
  /-- The accepted requests still to come, next one first (R147). -/
  requests : List Request
  /-- The results handed to callers so far, oldest first (R14, R188). -/
  results : List Result
  /-- The waveform driven on the pin so far, oldest event first (R187, R188). -/
  emitted : List Event
deriving DecidableEq, Repr

/-- Right after reset (R30): all cells 0, pin low, idle, `LAST` none; no request has come and nothing has been sent. -/
def State.reset : State where
  cache := Vector.replicate 4 { outputA := 0, outputB := 0 }
  pin := .low
  pending := []
  last := none
  requests := []
  results := []
  emitted := []

end Sys2Proof.Machine
end

