-- ==== Sys2Proof/Machine/Flags.lean ====
section
/-!
DEFINITION. What stands in the place of flags (R25): the busy predicate and the reading of a result.
The encoder has no condition codes, so no operation computes a flag.
-/
namespace Sys2Proof.Machine

/-- The encoder is busy when events are pending, and idle otherwise (R24, R25). -/
def State.busy (s : State) : Bool := !s.pending.isEmpty

/-- The boolean the source promises: everything but `fail` is success (R14). -/
def Result.success : Result → Bool
  | .ok => true
  | .value _ => true
  | .fail _ => false

/-- The numeric code of a rejection reason; 0 stands for `ok` (R140). -/
def Reason.code : Reason → Nat
  | .invalidChannel => 1
  | .invalidValue => 2
  | .invalidPort => 3
  | .invalidMode => 4
  | .invalidLength => 5

end Sys2Proof.Machine
end

