-- ==== Sys2Proof/Config.lean ====
section
/-!
DEFINITION. The encoder's constants (R7, R8, R26) and its OPEN parameters (R9, R10).
An OPEN parameter is an opaque constant with no body: a claim holds for every value of it.
-/
namespace Sys2Proof

/-- `ADDRESS_BIT`, one bit, bit 3 of N1 (R7, R26). -/
def Config.addressBit : BitVec 1 := 0

/-- `MODE_BIT`, one bit, bit 2 of N1 (R7, R26). -/
def Config.modeBit : BitVec 1 := 1

/-- `LRC_SEED`, four bits, the checksum's seed (R7, R26). -/
def Config.lrcSeed : BitVec 4 := 0xF

/-- `MARK_CYCLES`, carrier cycles in one mark (R7, R26). -/
def Config.markCycles : Nat := 6

/-- `APPLY_REPEATS`, packets sent for one accepted command (R8). -/
def Config.applyRepeats : Nat := 3

/-- `APPLY_DELAY_MS`, the gap between those packets (R8). -/
def Config.applyDelayMs : Nat := 30

/-- `SEND_REPEATS`, the default repeat count of SEND_CHANNEL (R8). -/
def Config.sendRepeats : Nat := 1

/-- `SEND_DELAY_MS`, the default gap of SEND_CHANNEL (R8). -/
def Config.sendDelayMs : Nat := 0

/-- `REFRESH_GAP_MS`, the gap between channels in REFRESH_ALL (R8). -/
def Config.refreshGapMs : Nat := 5

/-- How far `PAUSE_0` lies above its least admissible value 1 (R9; log entry 6). -/
opaque Config.pause0Excess : Nat

/-- How far `PAUSE_1` lies above its least admissible value `PAUSE_0 + 1` (R9; log entry 6). -/
opaque Config.pause1Excess : Nat

/-- How far `PAUSE_SS` lies above its least admissible value `PAUSE_1 + 1` (R9; log entry 6). -/
opaque Config.pauseSSExcess : Nat

/-- `PAUSE_0`, carrier cycles: any positive number (R9). -/
def Config.pause0 : Nat := Config.pause0Excess + 1

/-- `PAUSE_1`, carrier cycles: any number above `PAUSE_0` (R9). -/
def Config.pause1 : Nat := Config.pause0 + Config.pause1Excess + 1

/-- `PAUSE_SS`, carrier cycles: any number above `PAUSE_1` (R9). -/
def Config.pauseSS : Nat := Config.pause1 + Config.pauseSSExcess + 1

/-- `MODE_COMBO_PWM`, the mode byte that means Combo PWM: OPEN (R9; log entry 5). -/
opaque Config.modeComboPwm : Byte

/-- `HAS_ECHO`: whether the diagnostic echo register `LAST` exists: OPEN (R10, R29; log entry 7). -/
opaque Config.hasEcho : Bool

end Sys2Proof
end

