-- ==== Sys2Proof/WellFormed.lean ====
section
/-!
DEFINITION. Which operations are well formed: the operand ranges and encodings the spec gives them.
A command with an illegal channel or value is well formed: it is an APPLY that ends `fail` (R70, R120).
-/
namespace Sys2Proof

/-- `1 <= channel <= 4` (R43). -/
def legalChannel (channel : Nat) : Bool := decide (1 ≤ channel) && decide (channel ≤ 4)

/-- A command that matches none of the four APPLY rows by its length and port byte (R71). -/
def unmatchedCommand : List Byte → Bool
  | [_, port, _] => decide (1 < port.toNat)
  | [_, port, _, _] => decide (1 < port.toNat)
  | _ => true

/-- The checksum that the fields of a packet require: `0xF ^ N1 ^ N2 ^ N3` with `N1 = 4 + code` (R63, R103). -/
def requiredChecksum (code : BitVec 2) (outB outA : Value) : Value :=
  Config.lrcSeed ^^^ (0b01#2 ++ code) ^^^ outB ^^^ outA

/-- The operands are ones the spec gives the operation. -/
def Instr.wellFormed : Instr → Bool
  | .applyA3 _ _ => true
  | .applyB3 _ _ => true
  | .applyA4 _ _ _ => true
  | .applyB4 _ _ _ => true
  | .applyReject bytes => unmatchedCommand bytes
  | .refreshAll => true
  | .reset => true
  | .sendChannel channel _ _ => legalChannel channel
  | .encodeAndSend channel outB outA =>
    legalChannel channel && decide (outB.toNat ≤ 15) && decide (outA.toNat ≤ 15)
  | .get channel _ => legalChannel channel
  | .set _ _ _ => true
  | .nibble _ => true
  | .bit _ => true
  | .symbol _ => true
  | .mark => true
  | .pktComboPwm code outB outA check => check == requiredChecksum code outB outA
  | .symSS => true
  | .symB0 => true
  | .symB1 => true

end Sys2Proof
end

