-- ==== Sys2Proof/Decode.lean ====
section
/-!
DEFINITION. Decoding of command bytes (R60, R61, R71, R77, R121), of packet words (R63) and of opcode-table words, and the encoders.
Decoding a command is total: bytes that match no APPLY row become APPLY.REJECT with all their bytes.
-/
namespace Sys2Proof

/-- The port a command's port byte names: 0 is A, 1 is B, 2..255 name none (R60, R66, R71). -/
def portOf (port : Byte) : Option Port :=
  if port.toNat = 0 then some .a else if port.toNat = 1 then some .b else none

/-- The port byte of a port (R60, R75). -/
def portByte : Port → Byte
  | .a => 0
  | .b => 1

/-- The operation a command selects (R77).
The mode byte of a CMD4 command is an operand: the value it is checked against is OPEN, and the meaning checks it (R121; log entry 5). -/
def decodeCommand (bytes : List Byte) : Instr :=
  match bytes with
  | [channel, port, value] =>
    match portOf port with
    | some .a => .applyA3 channel value
    | some .b => .applyB3 channel value
    | none => .applyReject [channel, port, value]
  | [channel, port, value, mode] =>
    match portOf port with
    | some .a => .applyA4 channel value mode
    | some .b => .applyB4 channel value mode
    | none => .applyReject [channel, port, value, mode]
  | other => .applyReject other

/-- The operation a request selects (R77, R147, R170; `call`: R75). -/
def decode : Request → Instr
  | .command bytes => decodeCommand bytes
  | .tick => .refreshAll
  | .reset => .reset
  | .call i => i

/-- The fields of a word of the PKT layout `01ccBBBBAAAALLLL`; `none` where bits 15:14 are not 01 (R63). -/
def decodePacket (w : PacketWord) : Option Instr :=
  if w.extractLsb' 14 2 = 0b01#2 then
    some (.pktComboPwm (w.extractLsb' 12 2) (w.extractLsb' 8 4) (w.extractLsb' 4 4) (w.extractLsb' 0 4))
  else none

/-- The packet word of the fields (R63). -/
def encodePacket (code : BitVec 2) (outB outA check : Value) : PacketWord :=
  0b01#2 ++ code ++ outB ++ outA ++ check

/-- The request that selects an operation, written from R60 to R62 and R75. -/
def encode : Instr → Request
  | .applyA3 channel value => .command [channel, portByte .a, value]
  | .applyB3 channel value => .command [channel, portByte .b, value]
  | .applyA4 channel value mode => .command [channel, portByte .a, value, mode]
  | .applyB4 channel value mode => .command [channel, portByte .b, value, mode]
  | .applyReject bytes => .command bytes
  | .refreshAll => .tick
  | .reset => .reset
  | .sendChannel channel repeats delay => .call (.sendChannel channel repeats delay)
  | .encodeAndSend channel outB outA => .call (.encodeAndSend channel outB outA)
  | .get channel port => .call (.get channel port)
  | .set channel port value => .call (.set channel port value)
  | .nibble n => .call (.nibble n)
  | .bit v => .call (.bit v)
  | .symbol p => .call (.symbol p)
  | .mark => .call .mark
  | .pktComboPwm code outB outA check => .call (.pktComboPwm code outB outA check)
  | .symSS => .call .symSS
  | .symB0 => .call .symB0
  | .symB1 => .call .symB1

/-- The `n` low bytes of `w`, most significant first: byte 0 of a command is the top byte of its table word (R60, R61). -/
def bytesOfWord : Nat → Nat → List Byte
  | 0, _ => []
  | n + 1, w => BitVec.ofNat 8 (w / 256 ^ n) :: bytesOfWord n w

/-- The request an opcode-table word of `nbits` bits stands for (log entry 13).
No bits is the tick (R62); 16 bits of the PKT layout are a packet (R63); any other width is a command of `nbits / 8` bytes. -/
def requestOfTableWord (nbits w : Nat) : Request :=
  if nbits = 0 then .tick
  else if nbits = 16 then
    match decodePacket (BitVec.ofNat 16 w) with
    | some i => .call i
    | none => .command (bytesOfWord 2 w)
  else .command (bytesOfWord (nbits / 8) w)

/-- What the decoder reads from an opcode-table word (log entry 13). -/
def decodeTableWord (nbits w : Nat) : Option Instr := some (decode (requestOfTableWord nbits w))

end Sys2Proof
end

