-- ==== Sys2Proof/Machine/Operands.lean ====
section
/-!
DEFINITION. Operand assembly and the checks on operands (R46, R66, R67, R121).
-/
namespace Sys2Proof.Machine

/-- The cache index of a channel, `channel - 1`, for channels 1..4 only: no wrap and no clamp (R43, R46, R67). -/
def channelIndex (channel : Nat) : Option (Fin 4) :=
  if h : 1 ≤ channel ∧ channel ≤ 4 then some ⟨channel - 1, by omega⟩ else none

/-- The 2-bit channel code of a cache index: the same number (R67). -/
def channelCode (i : Fin 4) : BitVec 2 := BitVec.ofNat 2 i.val

/-- The port check of a command, after its length and mode (R121). -/
def commandWithPort (channel port value : Byte) : Except Reason (Byte × Port × Byte) :=
  match portOf port with
  | some p => .ok (channel, p, value)
  | none => .error .invalidPort

/-- Decoding a command into channel, port and value: length, then mode, then port (R121, R149). -/
def commandOperands : List Byte → Except Reason (Byte × Port × Byte)
  | [channel, port, value] => commandWithPort channel port value
  | [channel, port, value, mode] =>
    if mode ≠ Config.modeComboPwm then .error .invalidMode else commandWithPort channel port value
  | _ => .error .invalidLength

end Sys2Proof.Machine
end

