-- ==== Sys2Proof/Machine/Ops.lean ====
section
/-!
DEFINITION. The named operations over the state: emitting events, handing back results, accepting a request,
rejecting one (the counterpart of taking an exception), and the cells of the cache.
-/
namespace Sys2Proof.Machine

/-- The level of the pin during an event (R13, R24). -/
def Event.level : Event → Level
  | .H => .high
  | .L => .low
  | .D _ => .low

/-- `emit_all`: append events to the trace of the operation in progress (00_scope.md section 5.3; log entry 3). -/
def emitAll (es : List Event) (s : State) : State := { s with pending := s.pending ++ es }

/-- A delay of `ms` milliseconds; a delay of 0 appends nothing (R13). -/
def delayEvents (ms : Nat) : List Event := if 0 < ms then [.D ms] else []

/-- Hand a result to the caller (R14, R25). -/
def report (r : Result) (s : State) : State := { s with results := s.results ++ [r] }

/-- A rejection: the result, and nothing else (R150). -/
def rejection (r : Reason) (s : State) : State := report (.fail r) s

/-- A request or construction is accepted only when the encoder is idle (R24, R147, R170). -/
def acceptWhenIdle (whenBusy : Refusal) (s t : State) : Host.Outcome State Fault Refusal :=
  if s.busy then .refused whenBusy else .next t

/-- A step of a busy encoder: its first pending event drives the pin (R24). -/
def driveEvent (e : Event) (rest : List Event) (s : State) : State :=
  { s with pin := e.level, pending := rest, emitted := s.emitted ++ [e] }

/-- The encoder after all its pending events have been driven, the atomic view of R12 and R24. -/
def settle (s : State) : State :=
  { s with
    pin := s.pending.foldl (fun _ e => e.level) s.pin
    pending := []
    emitted := s.emitted ++ s.pending }

/-- One cell of a record (R21). -/
def ChannelState.cell (c : ChannelState) : Port → Value
  | .a => c.outputA
  | .b => c.outputB

/-- A record with one cell replaced and the other kept (R45). -/
def ChannelState.withCell (c : ChannelState) (v : Value) : Port → ChannelState
  | .a => { c with outputA := v }
  | .b => { c with outputB := v }

/-- `MemRead((idx, p), 4)`: the cell `x[2*idx + p]` (00_scope.md section 5.3, R44). -/
def readCell (c : Cache) (i : Fin 4) (p : Port) : Value := (c.get i).cell p

/-- `MemWrite((idx, p), 4, v)`: the write of the cell `x[2*idx + p]` (00_scope.md section 5.3, R45). -/
def writeCell (c : Cache) (i : Fin 4) (p : Port) (v : Value) : Cache := c.set i ((c.get i).withCell v p)

/-- `LAST` after a command is applied, where the echo exists (R29, R120). -/
def recordApplied (channel : Byte) (port : Port) (value : Byte) (s : State) : State :=
  { s with
    last := if Config.hasEcho then some { channel := channel, port := port, value := value.setWidth 4 } else s.last }

/-- Construction: every piece of the encoder's own state at its reset value (R30, R170).
What the environment holds is not the encoder's and stays (log entry 12). -/
def construct (s : State) : State :=
  { State.reset with requests := s.requests, results := s.results, emitted := s.emitted }

end Sys2Proof.Machine
end

