-- ==== Sys2Proof/Machine/ChannelCache.lean ====
section
/-!
DEFINITION. Family 3, the Channel State Cache: GET and SET (R110 to R113).
-/
namespace Sys2Proof.Machine

/-- The value GET returns, or its rejection for a channel outside 1..4 (R111). -/
def getResult (channel : Nat) (port : Port) (c : Cache) : Result :=
  match channelIndex channel with
  | some i => .value (readCell c i port)
  | none => .fail .invalidChannel

/-- SET on the state: the channel check, the value check, then one cell is written (R112). -/
def setCell (channel : Byte) (port : Port) (value : Byte) (s : State) : Except Reason State :=
  match channelIndex channel.toNat with
  | none => .error .invalidChannel
  | some i =>
    if 15 < value.toNat then .error .invalidValue
    else .ok { s with cache := writeCell s.cache i port (value.setWidth 4) }

/-- GET (R111). -/
def execGet (channel : Nat) (port : Port) (s : State) : Host.Outcome State Fault Refusal :=
  .next (report (getResult channel port s.cache) s)

/-- SET (R112). -/
def execSet (channel : Byte) (port : Port) (value : Byte) (s : State) : Host.Outcome State Fault Refusal :=
  match setCell channel port value s with
  | .ok t => .next (report .ok t)
  | .error r => .next (rejection r s)

end Sys2Proof.Machine
end

