-- ==== Sys2Proof/Machine/SymbolGenerator.lean ====
section
/-!
DEFINITION. Family 1, the Symbol Generator: MARK, SYMBOL, BIT, NIBBLE (R90 to R95), and the three symbols of format SYM (R64).
-/
namespace Sys2Proof.Machine

/-- `k` carrier cycles, each one high half then one low half (R90). -/
def carrierCycles : Nat → List Event
  | 0 => []
  | k + 1 => .H :: .L :: carrierCycles k

/-- The trace of a mark (R90). -/
def markEvents : List Event := carrierCycles Config.markCycles

/-- The trace of a symbol: a mark, then `p` full carrier periods low (R91). -/
def symbolEvents (p : Nat) : List Event := markEvents ++ List.replicate (2 * p) .L

/-- The trace of a data bit (R92). -/
def bitEvents (v : Bool) : List Event := if v then symbolEvents Config.pause1 else symbolEvents Config.pause0

/-- The trace of the bits `n[k-1]` down to `n[0]` of a word, most significant first (R42). -/
def bitsEvents {w : Nat} (n : BitVec w) : Nat → List Event
  | 0 => []
  | k + 1 => bitEvents (n.getLsbD k) ++ bitsEvents n k

/-- The trace of a nibble: its bits 3 down to 0 (R93). -/
def nibbleEvents (n : Value) : List Event := bitsEvents n 4

/-- MARK (R90). -/
def execMark (s : State) : Host.Outcome State Fault Refusal := .next (emitAll markEvents s)

/-- SYMBOL (R91). -/
def execSymbol (p : Nat) (s : State) : Host.Outcome State Fault Refusal := .next (emitAll (symbolEvents p) s)

/-- BIT (R92). -/
def execBit (v : Bool) (s : State) : Host.Outcome State Fault Refusal := .next (emitAll (bitEvents v) s)

/-- NIBBLE (R93). -/
def execNibble (n : Value) (s : State) : Host.Outcome State Fault Refusal := .next (emitAll (nibbleEvents n) s)

/-- SYM.SS (R64). -/
def execSymSS (s : State) : Host.Outcome State Fault Refusal := .next (emitAll (symbolEvents Config.pauseSS) s)

/-- SYM.B0 (R64). -/
def execSymB0 (s : State) : Host.Outcome State Fault Refusal := .next (emitAll (symbolEvents Config.pause0) s)

/-- SYM.B1 (R64). -/
def execSymB1 (s : State) : Host.Outcome State Fault Refusal := .next (emitAll (symbolEvents Config.pause1) s)

end Sys2Proof.Machine
end

