-- ==== Sys2Proof/Machine/PacketEncoder.lean ====
section
/-!
DEFINITION. Family 2, the Packet Encoder: ENCODE_AND_SEND (R100 to R105), and the packet format PKT.COMBO_PWM on the wire (R63, R65).
-/
namespace Sys2Proof.Machine

/-- `N1 = (ADDRESS_BIT << 3) | (MODE_BIT << 2) | ch` (R100). -/
def nibble1 (code : BitVec 2) : Value :=
  (Config.addressBit.setWidth 4 <<< 3) ||| (Config.modeBit.setWidth 4 <<< 2) ||| code.setWidth 4

/-- The checksum `0xF ^ N1 ^ N2 ^ N3` (R103). -/
def checksum (n1 n2 n3 : Value) : Value := Config.lrcSeed ^^^ n1 ^^^ n2 ^^^ n3

/-- An output value as it enters a packet: `out & 0xF`, four bits (R67, R100). -/
def maskOutput (out : Byte) : Value := (out &&& 0xF#8).setWidth 4

/-- The trace of the four nibbles between start and stop symbol (R100). -/
def packetEvents (code : BitVec 2) (n2 n3 : Value) : List Event :=
  symbolEvents Config.pauseSS ++ nibbleEvents (nibble1 code) ++ nibbleEvents n2 ++ nibbleEvents n3
    ++ nibbleEvents (checksum (nibble1 code) n2 n3) ++ symbolEvents Config.pauseSS

/-- The trace of a packet word on the wire: start, bits 15 down to 0, stop (R65). -/
def frameEvents (w : PacketWord) : List Event :=
  symbolEvents Config.pauseSS ++ bitsEvents w 16 ++ symbolEvents Config.pauseSS

/-- ENCODE_AND_SEND; its channel is a precondition, outside which it is refused with no trace (R100, R101). -/
def execEncodeAndSend (channel : Nat) (outB outA : Byte) (s : State) : Host.Outcome State Fault Refusal :=
  match channelIndex channel with
  | some i => .next (emitAll (packetEvents (channelCode i) (maskOutput outB) (maskOutput outA)) s)
  | none => .refused .channelPrecondition

/-- PKT.COMBO_PWM: the packet word goes out as a frame; a word with a wrong checksum is no packet of the encoder (R63, R65, R72; log entry 14). -/
def execPktComboPwm (code : BitVec 2) (outB outA check : Value) (s : State) : Host.Outcome State Fault Refusal :=
  if check = checksum (nibble1 code) outB outA then .next (emitAll (frameEvents (encodePacket code outB outA check)) s)
  else .refused .packetChecksum

end Sys2Proof.Machine
end

