-- ==== Sys2Proof/Machine/CommandApplier.lean ====
section
/-!
DEFINITION. Family 4, the Command Applier and Refresher: APPLY, SEND_CHANNEL, REFRESH_ALL (R120 to R128), and RESET (R170).
-/
namespace Sys2Proof.Machine

/-- The packet of a channel's current cached values (R124). -/
def channelPacket (c : Cache) (i : Fin 4) : List Event :=
  packetEvents (channelCode i) (readCell c i .b) (readCell c i .a)

/-- The loop of SEND_CHANNEL: the cache is read for each packet, and a delay stands between packets only (R124). -/
def sendEvents (c : Cache) (i : Fin 4) : Nat → Nat → List Event
  | 0, _ => []
  | 1, _ => channelPacket c i
  | n + 2, delay => channelPacket c i ++ delayEvents delay ++ sendEvents c i (n + 1) delay

/-- SEND_CHANNEL on the state, or its rejection for a channel outside 1..4 (R124). -/
def sendChannel (channel repeats delay : Nat) (s : State) : Except Reason State :=
  match channelIndex channel with
  | some i => .ok (emitAll (sendEvents s.cache i repeats delay) s)
  | none => .error .invalidChannel

/-- The loop of REFRESH_ALL over the channels still to send: one packet each, a gap between channels only (R126). -/
def refreshEvents (c : Cache) : List (Fin 4) → List Event
  | [] => []
  | [i] => sendEvents c i Config.sendRepeats Config.sendDelayMs
  | i :: j :: rest =>
    sendEvents c i Config.sendRepeats Config.sendDelayMs ++ delayEvents Config.refreshGapMs ++ refreshEvents c (j :: rest)

/-- APPLY of a command's bytes: decode, SET, the echo, then SEND_CHANNEL; the first check that fails ends it (R120, R121). -/
def applyCommand (cmd : List Byte) (s : State) : State :=
  match commandOperands cmd with
  | .error r => rejection r s
  | .ok (channel, port, value) =>
    match setCell channel port value s with
    | .error r => rejection r s
    | .ok t =>
      match sendChannel channel.toNat Config.applyRepeats Config.applyDelayMs (recordApplied channel port value t) with
      | .error r => rejection r s
      | .ok u => report .ok u

/-- APPLY.A from a three-byte command (R60, R120). -/
def execApplyA3 (channel value : Byte) (s : State) : Host.Outcome State Fault Refusal :=
  acceptWhenIdle .busy s (applyCommand [channel, portByte .a, value] s)

/-- APPLY.B from a three-byte command (R60, R120). -/
def execApplyB3 (channel value : Byte) (s : State) : Host.Outcome State Fault Refusal :=
  acceptWhenIdle .busy s (applyCommand [channel, portByte .b, value] s)

/-- APPLY.A from a four-byte command, its mode byte checked (R61, R120, R121). -/
def execApplyA4 (channel value mode : Byte) (s : State) : Host.Outcome State Fault Refusal :=
  acceptWhenIdle .busy s (applyCommand [channel, portByte .a, value, mode] s)

/-- APPLY.B from a four-byte command, its mode byte checked (R61, R120, R121). -/
def execApplyB4 (channel value mode : Byte) (s : State) : Host.Outcome State Fault Refusal :=
  acceptWhenIdle .busy s (applyCommand [channel, portByte .b, value, mode] s)

/-- APPLY.REJECT: APPLY of bytes that match no APPLY row, which its own checks reject (R71, R121). -/
def execApplyReject (bytes : List Byte) (s : State) : Host.Outcome State Fault Refusal :=
  acceptWhenIdle .busy s (applyCommand bytes s)

/-- REFRESH_ALL: channels 1 to 4 in order, always `ok` (R126). -/
def execRefreshAll (s : State) : Host.Outcome State Fault Refusal :=
  acceptWhenIdle .busy s (report .ok (emitAll (refreshEvents s.cache [0, 1, 2, 3]) s))

/-- SEND_CHANNEL, run directly (R124). -/
def execSendChannel (channel repeats delay : Nat) (s : State) : Host.Outcome State Fault Refusal :=
  match sendChannel channel repeats delay s with
  | .ok t => .next (report .ok t)
  | .error r => .next (rejection r s)

/-- RESET of an idle encoder; while it is busy a reset has no meaning and is refused (R170 to R172). -/
def execReset (s : State) : Host.Outcome State Fault Refusal :=
  acceptWhenIdle .resetWhileBusy s (construct s)

end Sys2Proof.Machine
end

