-- ==== Sys2Proof/Machine/Dispatch.lean ====
section
/-!
DEFINITION. One arm per operation, each a direct call of its meaning.
-/
namespace Sys2Proof.Machine

/-- The meaning of an operation, from its operands and the state (R11). -/
def exec (i : Instr) (s : State) : Host.Outcome State Fault Refusal :=
  match i with
  | .applyA3 channel value => Sys2Proof.Machine.execApplyA3 channel value s
  | .applyB3 channel value => Sys2Proof.Machine.execApplyB3 channel value s
  | .applyA4 channel value mode => Sys2Proof.Machine.execApplyA4 channel value mode s
  | .applyB4 channel value mode => Sys2Proof.Machine.execApplyB4 channel value mode s
  | .applyReject bytes => Sys2Proof.Machine.execApplyReject bytes s
  | .refreshAll => Sys2Proof.Machine.execRefreshAll s
  | .reset => Sys2Proof.Machine.execReset s
  | .sendChannel channel repeats delay => Sys2Proof.Machine.execSendChannel channel repeats delay s
  | .encodeAndSend channel outB outA => Sys2Proof.Machine.execEncodeAndSend channel outB outA s
  | .get channel port => Sys2Proof.Machine.execGet channel port s
  | .set channel port value => Sys2Proof.Machine.execSet channel port value s
  | .nibble n => Sys2Proof.Machine.execNibble n s
  | .bit v => Sys2Proof.Machine.execBit v s
  | .symbol p => Sys2Proof.Machine.execSymbol p s
  | .mark => Sys2Proof.Machine.execMark s
  | .pktComboPwm code outB outA check => Sys2Proof.Machine.execPktComboPwm code outB outA check s
  | .symSS => Sys2Proof.Machine.execSymSS s
  | .symB0 => Sys2Proof.Machine.execSymB0 s
  | .symB1 => Sys2Proof.Machine.execSymB1 s

end Sys2Proof.Machine
end

