-- ==== Sys2Proof/Machine/Step.lean ====
section
/-!
DEFINITION. One step (R12, R24, R147): a busy encoder drives its next event, an idle one accepts the next request,
and an idle encoder with no request stays as it is (R159, R188).
-/
namespace Sys2Proof.Machine

/-- One step of the encoder. -/
def step (s : State) : Host.Outcome State Fault Refusal :=
  match s.pending with
  | e :: rest => .next (driveEvent e rest s)
  | [] =>
    match s.requests with
    | [] => .next s
    | r :: rs => exec (decode r) { s with requests := rs }

/-- The state in which the very next step accepts the request of an opcode-table word (log entry 13).
The operation in progress, if any, is first driven to its end, because the encoder accepts only when idle. -/
def State.withFetchWord (s : State) (nbits w : Nat) : State :=
  { settle s with requests := requestOfTableWord nbits w :: s.requests }

end Sys2Proof.Machine
end

