-- ==== Sys2Proof/Machine/SymbolTrace.lean ====
section
/-!
DEFINITION. The symbol trace, the coarser view of the output (R94), and the frame of a packet word in it (R65).
It is written apart from the operations' own traces, so that the two can be compared.
-/
namespace Sys2Proof.Machine

/-- The alphabet of a symbol trace (R94). -/
inductive Sym where
  | SS
  | B0
  | B1
  | G (ms : Nat)
deriving DecidableEq, Repr

/-- The pin trace of one symbol-trace element (R94). -/
def expandOne : Sym → List Event
  | .SS => (List.replicate 6 [.H, .L]).flatten ++ List.replicate (2 * Config.pauseSS) .L
  | .B0 => (List.replicate 6 [.H, .L]).flatten ++ List.replicate (2 * Config.pause0) .L
  | .B1 => (List.replicate 6 [.H, .L]).flatten ++ List.replicate (2 * Config.pause1) .L
  | .G ms => [.D ms]

/-- `expand`: the pin trace of a symbol trace, element by element (R94). -/
def expand (l : List Sym) : List Event := l.flatMap expandOne

/-- The symbol of a data bit (R64, R92). -/
def bitSym (v : Bool) : Sym := if v then .B1 else .B0

/-- The four symbols of a nibble, bit 3 first (R42, R93). -/
def nibbleSyms (n : Value) : List Sym :=
  [bitSym (n.getLsbD 3), bitSym (n.getLsbD 2), bitSym (n.getLsbD 1), bitSym (n.getLsbD 0)]

/-- The eighteen symbols of a packet word: `SS`, the bits 15 down to 0, `SS` (R65). -/
def frameSyms (w : PacketWord) : List Sym :=
  [.SS] ++ ((List.range 16).map fun k => bitSym (w.getLsbD (15 - k))) ++ [.SS]

/-- The packet word of a channel code and two outputs (R63): bits 15:14 are 01, then the code, B, A and the checksum of R103. -/
def packetWord (code : BitVec 2) (outB outA : Value) : PacketWord :=
  0b01#2 ++ code ++ outB ++ outA ++ (0xF#4 ^^^ (0b01#2 ++ code) ^^^ outB ^^^ outA)

/-- The packet word of a channel's cached values (R63, R124). -/
def cachedWord (c : Cache) (i : Fin 4) : PacketWord :=
  packetWord (channelCode i) (readCell c i .b) (readCell c i .a)

/-- How many of the 16 data bits are 1, `ones(W)` (R105). -/
def ones (w : PacketWord) : Nat := ((List.range 16).filter fun k => w.getLsbD k).length

end Sys2Proof.Machine
end

