-- ==== Sys2Proof/Safety.lean ====
section
/-!
DEFINITION. What counts as a safe run, in the terms the claims use: the invariants of the state, which waveforms are legal,
the verdict on a command, and the atomic view of a sequence of requests (R12, R188).
-/
namespace Sys2Proof.Machine

/-- The encoder is idle (R24). -/
def State.Idle (s : State) : Prop := s.pending = []

/-- The state's invariant.
`pinRests`: the pin is low between operations, and the events pending leave it low (R22).
`delaysPositive`: `D(0)` is never written into a trace (R13).
`echoLegal`: `LAST` holds a triple only where the echo exists, and its channel is one of 1..4 (R29). -/
structure State.Inv (s : State) : Prop where
  pinRests : (s.pending = [] → s.pin = .low) ∧ ∀ e, s.pending.getLast? = some e → e.level = .low
  delaysPositive : ∀ ms, Event.D ms ∈ s.emitted ++ s.pending → 0 < ms
  echoLegal : ∀ l, s.last = some l → Config.hasEcho = true ∧ 1 ≤ l.channel.toNat ∧ l.channel.toNat ≤ 4

/-- Every request still to come is one the environment can make (R77, R128). -/
def State.ExternalOnly (s : State) : Prop := ∀ r ∈ s.requests, r.external = true

/-- What a legal waveform is made of: packets and gaps (R48, R72). -/
inductive OutItem where
  | packet (code : BitVec 2) (outB outA : Value)
  | gap (ms : Nat)
deriving DecidableEq, Repr

/-- The symbols of an item: a frame, or a gap (R65, R94). -/
def OutItem.syms : OutItem → List Sym
  | .packet code outB outA => frameSyms (packetWord code outB outA)
  | .gap ms => [.G ms]

/-- The item is a packet and no gap. -/
def OutItem.isPacket : OutItem → Bool
  | .packet _ _ _ => true
  | .gap _ => false

/-- The whole waveform, what was driven and what is pending, is a sequence of whole Combo PWM packets and gaps (R48, R65, R72). -/
def State.WaveformLegal (s : State) : Prop :=
  ∃ items : List OutItem, s.emitted ++ s.pending = expand (items.flatMap OutItem.syms)

/-- `LAST` tells what the cache holds: the cell it names has the value it names (R23, R29). -/
def State.EchoMatchesCache (s : State) : Prop :=
  ∀ l, s.last = some l → ∃ i, channelIndex l.channel.toNat = some i ∧ readCell s.cache i l.port = l.value

/-- The element of a symbol trace is a symbol and no gap (R94). -/
def Sym.isSymbol : Sym → Bool
  | .SS => true
  | .B0 => true
  | .B1 => true
  | .G _ => false

/-- The symbols of a trace, its gaps left out. -/
def withoutGaps (l : List Sym) : List Sym := l.filter Sym.isSymbol

/-- Which check of a command fails first, in the order length, mode, port, channel, value (R149); `none` where all pass.
Written from the table of R140, apart from the meanings. -/
def verdict (cmd : List Byte) : Option Reason :=
  if cmd.length ≠ 3 ∧ cmd.length ≠ 4 then some .invalidLength
  else if cmd.length = 4 ∧ cmd[3]? ≠ some Config.modeComboPwm then some .invalidMode
  else if cmd[1]? ≠ some 0 ∧ cmd[1]? ≠ some 1 then some .invalidPort
  else if ∀ c ∈ cmd[0]?, c.toNat = 0 ∨ 4 < c.toNat then some .invalidChannel
  else if ∀ v ∈ cmd[2]?, 15 < v.toNat then some .invalidValue
  else none

/-- The cell that SET with these operands writes, and the value it writes there; `none` where SET rejects them (R112). -/
def setTarget (channel : Byte) (port : Port) (value : Byte) : Option (Fin 4 × Port × Value) :=
  if value.toNat ≤ 15 then (channelIndex channel.toNat).map fun i => (i, port, value.setWidth 4) else none

/-- The cell that APPLY of a command writes, and the value; `none` where APPLY rejects it (R120, R121). -/
def commandTarget (cmd : List Byte) : Option (Fin 4 × Port × Value) :=
  match commandOperands cmd with
  | .ok (channel, port, value) => setTarget channel port value
  | .error _ => none

/-- Run one operation and then go on from where it leaves the state; a stop stays a stop. -/
def andThen (o : Host.Outcome State Fault Refusal) (f : State → Host.Outcome State Fault Refusal) :
    Host.Outcome State Fault Refusal :=
  match o with
  | .next s => f s
  | .fault r => .fault r
  | .refused r => .refused r

/-- Run operations one after another (R76, R127). -/
def execAll : List Instr → State → Host.Outcome State Fault Refusal
  | [], s => .next s
  | i :: is, s => andThen (exec i s) (execAll is)

/-- The atomic view of one request on an idle encoder: it is accepted and its whole trace is driven (R12, R24). -/
def serve (r : Request) (s : State) : State :=
  match exec (decode r) s with
  | .next t => settle t
  | .fault _ => s
  | .refused _ => s

/-- The atomic view of a sequence of requests, in the order they are accepted (R47, R188). -/
def serveAll (rs : List Request) (s : State) : State := rs.foldl (fun t r => serve r t) s

end Sys2Proof.Machine

namespace Sys2Proof

/-- The operation may write a cell of the cache or `LAST`: an APPLY, SET or RESET (R23, R29, R170). -/
def Instr.mayWrite : Instr → Bool
  | .applyA3 _ _ => true
  | .applyB3 _ _ => true
  | .applyA4 _ _ _ => true
  | .applyB4 _ _ _ => true
  | .applyReject _ => false
  | .refreshAll => false
  | .reset => true
  | .sendChannel _ _ _ => false
  | .encodeAndSend _ _ _ => false
  | .get _ _ => false
  | .set _ _ _ => true
  | .nibble _ => false
  | .bit _ => false
  | .symbol _ => false
  | .mark => false
  | .pktComboPwm _ _ _ _ => false
  | .symSS => false
  | .symB0 => false
  | .symB1 => false

/-- The one cell that an operation other than RESET writes, and the value: SET's own, or that of the SET within APPLY (R23). -/
def Instr.target : Instr → Option (Fin 4 × Port × Value)
  | .applyA3 channel value => Machine.commandTarget [channel, portByte .a, value]
  | .applyB3 channel value => Machine.commandTarget [channel, portByte .b, value]
  | .applyA4 channel value mode => Machine.commandTarget [channel, portByte .a, value, mode]
  | .applyB4 channel value mode => Machine.commandTarget [channel, portByte .b, value, mode]
  | .applyReject bytes => Machine.commandTarget bytes
  | .refreshAll => none
  | .reset => none
  | .sendChannel _ _ _ => none
  | .encodeAndSend _ _ _ => none
  | .get _ _ => none
  | .set channel port value => Machine.setTarget channel port value
  | .nibble _ => none
  | .bit _ => none
  | .symbol _ => none
  | .mark => none
  | .pktComboPwm _ _ _ _ => none
  | .symSS => none
  | .symB0 => none
  | .symB1 => none

/-- The operation belongs to the Symbol Generator or the Packet Encoder, or is a format they send: it only appends to the trace (R95, R100). -/
def Instr.onlySends : Instr → Bool
  | .applyA3 _ _ => false
  | .applyB3 _ _ => false
  | .applyA4 _ _ _ => false
  | .applyB4 _ _ _ => false
  | .applyReject _ => false
  | .refreshAll => false
  | .reset => false
  | .sendChannel _ _ _ => false
  | .encodeAndSend _ _ _ => true
  | .get _ _ => false
  | .set _ _ _ => false
  | .nibble _ => true
  | .bit _ => true
  | .symbol _ => true
  | .mark => true
  | .pktComboPwm _ _ _ _ => true
  | .symSS => true
  | .symB0 => true
  | .symB1 => true

end Sys2Proof
end

