-- ==== Sys2Proof/Certificates/Slice0/Obligations.lean ====
section
/-!
DEFINITION. The statements about the machine, from the numbered rules of spec/.
-/
open Sys2Proof Sys2Proof.Machine

/-! ### Reset and the step -/

/-- R30's table. The cells' zeros are the source's; the low pin is decision D3, the idle encoder and the empty `LAST` are D15 and D16,
the environment's empty fields are log entry 1, and the pauses are OPEN (log entry 6). -/
def Obligations.ResetGivesEveryFieldItsValue : Prop :=
  (∀ i p, readCell State.reset.cache i p = 0) ∧ State.reset.pin = .low ∧ State.reset.pending = [] ∧
  State.reset.last = none ∧ State.reset.results = [] ∧ State.reset.requests = [] ∧ State.reset.emitted = [] ∧
  Config.addressBit = 0 ∧ Config.modeBit = 1 ∧ Config.lrcSeed = 0xF ∧ Config.markCycles = 6 ∧
  Config.applyRepeats = 3 ∧ Config.applyDelayMs = 30 ∧ Config.refreshGapMs = 5 ∧
  0 < Config.pause0 ∧ Config.pause0 < Config.pause1 ∧ Config.pause1 < Config.pauseSS

/-- The state after reset meets every invariant stated below. -/
def Obligations.ResetMeetsTheInvariants : Prop :=
  State.reset.Inv ∧ State.reset.ExternalOnly ∧ State.reset.WaveformLegal ∧ State.reset.EchoMatchesCache

/-- An idle encoder accepts the next request, and the step is the operation it selects (R24, R147; decisions D6, D17). -/
def Obligations.IdleStepRunsTheDecodedRequest : Prop :=
  ∀ (s : State) (r : Request) (rs : List Request), s.pending = [] → s.requests = r :: rs →
    step s = exec (decode r) { s with requests := rs }

/-- The request that stands for an opcode-table word is the one the very next step runs (log entry 13). -/
def Obligations.PlacedTableWordRunsNext : Prop :=
  ∀ (s : State) (nbits w : Nat) (i : Instr), decodeTableWord nbits w = some i →
    step (s.withFetchWord nbits w) = exec i (settle s)

/-- An idle encoder with no request stays as it is (R159, R188; log entry 17). -/
def Obligations.IdleStepWithoutRequestChangesNothing : Prop :=
  ∀ s : State, s.pending = [] → s.requests = [] → step s = .next s

/-- A step of a busy encoder drives the first pending event and nothing else: requests wait (R24, R148; decisions D6, D17). -/
def Obligations.BusyStepDrivesOneEvent : Prop :=
  ∀ (s : State) (e : Event) (rest : List Event), s.pending = e :: rest →
    step s = .next { s with
      pin := if e = .H then .high else .low
      pending := rest
      emitted := s.emitted ++ [e] }

/-- Stepping a busy encoder to the end of its trace drives exactly that trace, leaves the pin low and changes nothing else:
the small-step view agrees with the atomic one (R12, R24; decision D17; the low pin is D3). -/
def Obligations.BusyEncoderRunsItsTraceToTheEnd : Prop :=
  ∀ s : State, s.Inv → Host.Core.run Sys2Proof.core s.pending.length s =
    .next { s with pin := .low, pending := [], emitted := s.emitted ++ s.pending }

/-- Requests of the environment never stop the machine: every step answers a next state (R140, R188). -/
def Obligations.EnvironmentRequestsNeverStopTheMachine : Prop :=
  ∀ s : State, s.ExternalOnly → ∃ t, step s = .next t ∧ t.ExternalOnly

/-- A finite sequence of the environment's requests is served to the end, each as one atomic transition in its turn (R12, R47, R188). -/
def Obligations.RequestSequenceIsServedInOrder : Prop :=
  ∀ s : State, s.Idle → s.ExternalOnly →
    ∃ n, Host.Core.run Sys2Proof.core n s = .next (serveAll s.requests { s with requests := [] }) ∧
      (serveAll s.requests { s with requests := [] }).Idle ∧ (serveAll s.requests { s with requests := [] }).requests = []

/-- Every request but a reset gets exactly one result (R14, R187; that RESET reports none is log entry 12). -/
def Obligations.EachRequestGetsOneResult : Prop :=
  ∀ (rs : List Request) (s : State), s.Idle → (∀ r ∈ rs, r.external = true) →
    (serveAll rs s).results.length = s.results.length + (rs.filter fun r => r ≠ .reset).length

/-- A busy encoder accepts no request (R147) and no reset (R172); decisions D6 and D15, U6 and U15 `refuse` (log entry 4). -/
def Obligations.BusyEncoderAcceptsNothing : Prop :=
  ∀ (i : Instr) (s : State), i.external = true → s.pending ≠ [] →
    exec i s = .refused (if i = .reset then .resetWhileBusy else .busy)

/-! ### Encodings -/

/-- No operand bit of a well-formed operation is lost on the way through its request and back (R60 to R62, R71, R75). -/
def Obligations.DecodeOfEncodeIsTheOperation : Prop :=
  ∀ i : Instr, i.wellFormed = true → decode (encode i) = i

/-- Every request of the environment decodes to a well-formed operation, and encoding that gives the request back (R73, R77). -/
def Obligations.EncodeOfDecodeIsTheRequest : Prop :=
  ∀ r : Request, r.external = true → encode (decode r) = r ∧ (decode r).wellFormed = true

/-- The command words of R60 and R61, byte 0 most significant (decision D20; table words as commands: log entry 13), select APPLY.A for
port byte 0 and APPLY.B for port byte 1, with every channel, value and mode byte. That a four-byte command selects them for every mode byte,
and not for `MODE_COMBO_PWM` only as R77 has it, is the model's choice (log entry 5): APPLY's meaning rejects the other modes. -/
def Obligations.CommandWordsSelectApply : Prop :=
  ∀ c v m : Byte,
    decodeTableWord 24 (c.toNat * 65536 + v.toNat) = some (.applyA3 c v) ∧
    decodeTableWord 24 (c.toNat * 65536 + 256 + v.toNat) = some (.applyB3 c v) ∧
    decodeTableWord 32 (c.toNat * 16777216 + v.toNat * 256 + m.toNat) = some (.applyA4 c v m) ∧
    decodeTableWord 32 (c.toNat * 16777216 + 65536 + v.toNat * 256 + m.toNat) = some (.applyB4 c v m)

/-- A few words written out from R60, R61, R63 and the vectors of 95_test_vectors.md decode to what they stand for
(the byte order of a word is decision D20, the rejected commands are D7 and D8). The model's own choices: a four-byte command decodes to its
APPLY row whatever its mode byte (log entry 5), and a table word stands for a command (log entry 13). -/
def Obligations.SampleWordsDecode : Prop :=
  decode (.command [0x01, 0x00, 0x07]) = .applyA3 1 7 ∧
  decode (.command [0x04, 0x01, 0x0F]) = .applyB3 4 15 ∧
  decode (.command [0x03, 0x01, 0x08, 0x2A]) = .applyB4 3 8 0x2A ∧
  decode (.command [0x03, 0x01]) = .applyReject [3, 1] ∧
  decode (.command [0x02, 0x02, 0x05]) = .applyReject [2, 2, 5] ∧
  decode .tick = .refreshAll ∧
  decodeTableWord 24 0x050003 = some (.applyA3 5 3) ∧
  decodePacket 0x407C = some (.pktComboPwm 0 0 7 0xC) ∧
  decodePacket 0xC07C = none

/-- The PKT layout (R63) loses nothing in either direction, and takes exactly the words with bits 15:14 equal to 01. -/
def Obligations.PacketLayoutRoundTrips : Prop :=
  (∀ (code : BitVec 2) (b a l : Value), decodePacket (encodePacket code b a l) = some (.pktComboPwm code b a l)) ∧
  (∀ w : PacketWord, decodePacket w = none ↔ w &&& 0xC000 ≠ 0x4000) ∧
  (∀ (w : PacketWord) (code : BitVec 2) (b a l : Value),
    decodePacket w = some (.pktComboPwm code b a l) → encodePacket code b a l = w)

/-! ### Symbol Generator -/

/-- MARK (R90): six carrier cycles, each high half first (decision D3). -/
def Obligations.MarkSendsSixCycles : Prop :=
  ∀ s : State, exec .mark s =
    .next { s with pending := s.pending ++ [.H, .L, .H, .L, .H, .L, .H, .L, .H, .L, .H, .L] }

/-- SYMBOL (R91): a mark, then `p` full carrier periods low, `12 + 2p` events in all; the phase of the mark is decision D3. -/
def Obligations.SymbolSendsMarkThenPause : Prop :=
  ∀ (p : Nat) (s : State), ∃ es, exec (.symbol p) s = .next { s with pending := s.pending ++ es } ∧
    es = (List.replicate 6 [Event.H, Event.L]).flatten ++ List.replicate (2 * p) .L ∧ es.length = 12 + 2 * p

/-- Format SYM (R64): a symbol is a mark of six cycles and then a pause, and the three symbols differ only in the length of the pause. -/
def Obligations.ThreeSymbolsDifferInTheirPause : Prop :=
  ∀ s : State, ∃ (t : State) (es : List Event), exec .mark s = .next t ∧ t.pending = s.pending ++ es ∧ es.count .H = 6 ∧
    exec .symSS s = .next { t with pending := t.pending ++ List.replicate (2 * Config.pauseSS) .L } ∧
    exec .symB0 s = .next { t with pending := t.pending ++ List.replicate (2 * Config.pause0) .L } ∧
    exec .symB1 s = .next { t with pending := t.pending ++ List.replicate (2 * Config.pause1) .L } ∧
    Config.pause0 ≠ Config.pause1 ∧ Config.pause0 ≠ Config.pauseSS ∧ Config.pause1 ≠ Config.pauseSS

/-- BIT (R92): a bit 0 is the symbol B0 and a bit 1 the symbol B1; the operand is one bit by decision D13. -/
def Obligations.BitSendsItsSymbol : Prop :=
  ∀ s : State,
    exec (.bit false) s = .next { s with pending := s.pending ++ expand [.B0] } ∧
    exec (.bit true) s = .next { s with pending := s.pending ++ expand [.B1] } ∧
    (expand [.B1]).length = (expand [.B0]).length + 2 * (Config.pause1 - Config.pause0)

/-- NIBBLE (R93): four symbols, bit 3 first, of the length the rule gives, and different nibbles give different traces. -/
def Obligations.NibbleSendsMostSignificantBitFirst : Prop :=
  ∀ (n : Value) (s : State),
    let l : List Sym := [bitSym (n.getLsbD 3), bitSym (n.getLsbD 2), bitSym (n.getLsbD 1), bitSym (n.getLsbD 0)]
    exec (.nibble n) s = .next { s with pending := s.pending ++ expand l } ∧
    (expand l).length =
      48 + 2 * (((List.range 4).filter fun k => n.getLsbD k).length * Config.pause1 +
        (4 - ((List.range 4).filter fun k => n.getLsbD k).length) * Config.pause0) ∧
    ∀ m : Value, expand l = expand (nibbleSyms m) → n = m

/-- The pin trace determines the symbol trace (R94, which the spec derives). -/
def Obligations.ExpandIsInjective : Prop :=
  ∀ l m : List Sym, expand l = expand m → l = m

/-! ### Packet Encoder -/

/-- ENCODE_AND_SEND for channels 1..4 sends one frame: eighteen symbols, `SS`, the bits of `W` from 15 down to 0, `SS` (R65);
that is N1, then output B, then output A, then the checksum (R41). -/
def Obligations.EncodeAndSendSendsOneFrame : Prop :=
  ∀ (i : Fin 4) (outB outA : Byte) (s : State),
    let w := packetWord (channelCode i) (outB.setWidth 4) (outA.setWidth 4)
    exec (.encodeAndSend (i.val + 1) outB outA) s = .next { s with pending := s.pending ++ expand (frameSyms w) } ∧
    (frameSyms w).length = 18 ∧
    frameSyms w = [.SS] ++ nibbleSyms (0b01#2 ++ channelCode i) ++ nibbleSyms (outB.setWidth 4) ++
      nibbleSyms (outA.setWidth 4) ++ nibbleSyms (w.extractLsb' 0 4) ++ [.SS]

/-- Outside channels 1..4 ENCODE_AND_SEND is refused with no trace: the rule's precondition (R101; decision D13, U3 `refuse`). -/
def Obligations.EncodeAndSendRefusesOtherChannels : Prop :=
  ∀ (c : Nat) (outB outA : Byte) (s : State), c = 0 ∨ 5 ≤ c →
    exec (.encodeAndSend c outB outA) s = .refused .channelPrecondition

/-- The fourth nibble that ENCODE_AND_SEND sends is the exclusive-or chain over the whole first nibble, bit by bit as R103 writes it. -/
def Obligations.ChecksumIsTheXorChain : Prop :=
  ∀ (i : Fin 4) (outB outA : Byte) (s : State), ∃ n1 n2 n3 l : Value,
    exec (.encodeAndSend (i.val + 1) outB outA) s = .next { s with
      pending := s.pending ++ expand ([.SS] ++ nibbleSyms n1 ++ nibbleSyms n2 ++ nibbleSyms n3 ++ nibbleSyms l ++ [.SS]) } ∧
    n1 = 0b01#2 ++ channelCode i ∧ n2 = outB.setWidth 4 ∧ n3 = outA.setWidth 4 ∧ l = 0xF ^^^ n1 ^^^ n2 ^^^ n3 ∧
    (∀ k < 4, l.getLsbD k = (true ^^ n1.getLsbD k ^^ n2.getLsbD k ^^ n3.getLsbD k)) ∧
    l.getLsbD 3 = (true ^^ outB.getLsbD 3 ^^ outA.getLsbD 3) ∧
    l.getLsbD 2 = (outB.getLsbD 2 ^^ outA.getLsbD 2) ∧
    l.getLsbD 1 = (true ^^ (channelCode i).getLsbD 1 ^^ outB.getLsbD 1 ^^ outA.getLsbD 1) ∧
    l.getLsbD 0 = (true ^^ (channelCode i).getLsbD 0 ^^ outB.getLsbD 0 ^^ outA.getLsbD 0)

/-- The properties of every packet that ENCODE_AND_SEND sends (R104): its nibbles xor to 0xF, recomputing the checksum from its fields
gives it back, the operands can be read back, and the number of ones is even, from 4 to 12 ((c) and (d) are the spec's own derivations). -/
def Obligations.EveryPacketSentHasTheR104Properties : Prop :=
  ∀ (i : Fin 4) (outB outA : Byte) (s : State), ∃ w : PacketWord,
    exec (.encodeAndSend (i.val + 1) outB outA) s = .next { s with pending := s.pending ++ expand (frameSyms w) } ∧
    w.extractLsb' 12 4 ^^^ w.extractLsb' 8 4 ^^^ w.extractLsb' 4 4 ^^^ w.extractLsb' 0 4 = 0xF ∧
    packetWord (w.extractLsb' 12 2) (w.extractLsb' 8 4) (w.extractLsb' 4 4) = w ∧
    w.extractLsb' 12 2 = channelCode i ∧ w.extractLsb' 8 4 = outB.setWidth 4 ∧ w.extractLsb' 4 4 = outA.setWidth 4 ∧
    w &&& 0xC000 = 0x4000 ∧ Even (ones w) ∧ 4 ≤ ones w ∧ ones w ≤ 12

/-- The size of a frame's trace, 108 of its events high (R105, which the spec derives). -/
def Obligations.FrameTraceHasTheR105Size : Prop :=
  ∀ w : PacketWord,
    (expand (frameSyms w)).length =
      216 + 2 * (2 * Config.pauseSS + ones w * Config.pause1 + (16 - ones w) * Config.pause0) ∧
    (expand (frameSyms w)).count .H = 108

/-- The packet row: a packet with its right checksum goes out as the frame of its word, just as ENCODE_AND_SEND sends it (R63, R65, R100);
with another checksum it is refused, since the encoder never sends it (R72; log entry 14). -/
def Obligations.PacketRowIsWhatEncodeAndSendSends : Prop :=
  ∀ (code : BitVec 2) (b a l : Value) (s : State),
    (l = 0xF ^^^ (0b01#2 ++ code) ^^^ b ^^^ a →
      exec (.pktComboPwm code b a l) s = .next { s with pending := s.pending ++ expand (frameSyms (encodePacket code b a l)) } ∧
      exec (.pktComboPwm code b a l) s = exec (.encodeAndSend (code.toNat + 1) (b.setWidth 8) (a.setWidth 8)) s) ∧
    (l ≠ 0xF ^^^ (0b01#2 ++ code) ^^^ b ^^^ a → exec (.pktComboPwm code b a l) s = .refused .packetChecksum)

/-! ### Channel State Cache -/

/-- GET returns the cell of a channel 1..4 and changes nothing; for any other channel it returns no value (R111; the failure is decision D14). -/
def Obligations.GetReturnsTheCell : Prop :=
  ∀ (c : Nat) (p : Port) (s : State),
    (∀ i : Fin 4, c = i.val + 1 →
      exec (.get c p) s = .next { s with results := s.results ++ [.value (readCell s.cache i p)] }) ∧
    (c = 0 ∨ 5 ≤ c → exec (.get c p) s = .next { s with results := s.results ++ [.fail .invalidChannel] })

/-- A write of a cell is all or nothing (R45): a SET that succeeds replaces one cell and keeps the other seven, a SET that fails keeps all,
and an APPLY followed by GET returns the value with the other port's value unchanged. -/
def Obligations.WriteOfACellIsAllOrNothing : Prop :=
  (∀ (i : Fin 4) (c v : Byte) (p : Port) (s : State), c.toNat = i.val + 1 → v.toNat ≤ 15 →
    ∃ t, exec (.set c p v) s = .next t ∧ t = { s with cache := t.cache, results := s.results ++ [.ok] } ∧
      readCell t.cache i p = v.setWidth 4 ∧
      ∀ j q, (j, q) ≠ (i, p) → readCell t.cache j q = readCell s.cache j q) ∧
  (∀ (c v : Byte) (p : Port) (s : State), c.toNat = 0 ∨ 5 ≤ c.toNat ∨ 16 ≤ v.toNat →
    ∃ r, exec (.set c p v) s = .next { s with results := s.results ++ [.fail r] }) ∧
  (∀ (i : Fin 4) (c v : Byte) (p : Port) (s : State), s.Idle → c.toNat = i.val + 1 → v.toNat ≤ 15 →
    ∃ t, exec (decode (.command [c, portByte p, v])) s = .next t ∧
      exec (.get c.toNat p) t = .next { t with results := t.results ++ [.value (v.setWidth 4)] } ∧
      ∀ q, q ≠ p → readCell t.cache i q = readCell s.cache i q)

/-- The cache keeps every cell until a SET or APPLY of that very cell or a reset (R32). -/
def Obligations.CellsChangeOnlyBySetOrReset : Prop :=
  ∀ (i : Instr) (s t : State) (j : Fin 4) (q : Port), i.wellFormed = true → exec i s = .next t →
    readCell t.cache j q ≠ readCell s.cache j q →
    (i = .reset ∧ readCell t.cache j q = 0) ∨
    ∃ c v : Byte, c.toNat = j.val + 1 ∧ v.toNat ≤ 15 ∧ readCell t.cache j q = v.setWidth 4 ∧
      (i = .set c q v ∨ i = decode (.command [c, portByte q, v]) ∨
        i = decode (.command [c, portByte q, v, Config.modeComboPwm]))

/-! ### Rejections -/

/-- InvalidChannel (R141): a channel byte of 0, or of 5 and up, makes SET and APPLY no-ops that report the failure;
which reason is named where the value is out of range too is left to the statement about the order of checks. -/
def Obligations.ChannelOutsideOneToFourIsRejected : Prop :=
  ∀ (c v : Byte) (p : Port) (s : State), c.toNat = 0 ∨ 5 ≤ c.toNat → ∃ r : Reason, (v.toNat ≤ 15 → r = .invalidChannel) ∧
    exec (.set c p v) s = .next { s with results := s.results ++ [.fail r] } ∧
    (s.Idle →
      exec (decode (.command [c, portByte p, v])) s = .next { s with results := s.results ++ [.fail r] } ∧
      exec (decode (.command [c, portByte p, v, Config.modeComboPwm])) s = .next { s with results := s.results ++ [.fail r] })

/-- InvalidValue (R142): a value byte of 16 and up is compared whole, not masked, and makes SET and APPLY no-ops that report the failure;
which reason is named where the channel is out of range too is left to the statement about the order of checks. -/
def Obligations.ValueAboveFifteenIsRejected : Prop :=
  ∀ (c v : Byte) (p : Port) (s : State), 16 ≤ v.toNat → ∃ r : Reason, (1 ≤ c.toNat → c.toNat ≤ 4 → r = .invalidValue) ∧
    exec (.set c p v) s = .next { s with results := s.results ++ [.fail r] } ∧
    (s.Idle →
      exec (decode (.command [c, portByte p, v])) s = .next { s with results := s.results ++ [.fail r] } ∧
      exec (decode (.command [c, portByte p, v, Config.modeComboPwm])) s = .next { s with results := s.results ++ [.fail r] })

/-- Any byte string an idle encoder accepts as a command is rejected with the first check that fails, or ends `ok`:
the order of R149 (a) and the reasons are decisions D7 to D10. -/
def Obligations.FirstFailingCheckDecidesTheResult : Prop :=
  ∀ (cmd : List Byte) (s : State), s.Idle →
    (∀ r, verdict cmd = some r → exec (decode (.command cmd)) s = .next { s with results := s.results ++ [.fail r] }) ∧
    (verdict cmd = none → ∃ t, exec (decode (.command cmd)) s = .next t ∧ t.results = s.results ++ [.ok])

/-- The row APPLY.REJECT: a command of another length, of an unknown mode, or with a port byte 2..255 is rejected with no other effect
(R71, R121; decisions D7 to D10). -/
def Obligations.RejectRowRejects : Prop :=
  ∀ (cmd : List Byte) (s : State), s.Idle → unmatchedCommand cmd = true →
    let reason : Reason :=
      if cmd.length ≠ 3 ∧ cmd.length ≠ 4 then .invalidLength
      else if cmd.length = 4 ∧ cmd[3]? ≠ some Config.modeComboPwm then .invalidMode
      else .invalidPort
    exec (.applyReject cmd) s = .next { s with results := s.results ++ [.fail reason] }

/-- A rejection leaves no mark (R150): no cell, no `LAST`, no pin event, an idle encoder, and the result to the caller. -/
def Obligations.RejectionLeavesNoMark : Prop :=
  ∀ (cmd : List Byte) (s t : State) (r : Reason), exec (decode (.command cmd)) s = .next t →
    t.results = s.results ++ [.fail r] → t = { s with results := s.results ++ [.fail r] } ∧ t.Idle

/-! ### Command Applier and Refresher -/

/-- An accepted command (R120): the cell is written first, `LAST` records it where the echo exists, and the channel's packet with the new value
goes out three times with 30 ms between (delays between packets only: decision D11); a four-byte command of mode `MODE_COMBO_PWM`
is the three-byte one (R61, D9). -/
def Obligations.AcceptedCommandWritesThenSendsThreePackets : Prop :=
  ∀ (i : Fin 4) (c v : Byte) (p : Port) (s : State), s.Idle → c.toNat = i.val + 1 → v.toNat ≤ 15 →
    let cache := writeCell s.cache i p (v.setWidth 4)
    let f := frameSyms (cachedWord cache i)
    let t : State := { s with
      cache := cache
      last := if Config.hasEcho then some { channel := c, port := p, value := v.setWidth 4 } else s.last
      pending := expand (f ++ [.G 30] ++ f ++ [.G 30] ++ f)
      results := s.results ++ [.ok] }
    (p = .a → exec (.applyA3 c v) s = .next t ∧ exec (.applyA4 c v Config.modeComboPwm) s = .next t) ∧
    (p = .b → exec (.applyB3 c v) s = .next t ∧ exec (.applyB4 c v Config.modeComboPwm) s = .next t)

/-- A four-byte command of any other mode is rejected with InvalidMode, whatever its other bytes (R61, R144; decision D9, order D10). -/
def Obligations.OtherModesAreRejected : Prop :=
  ∀ (c v m : Byte) (s : State), s.Idle → m ≠ Config.modeComboPwm →
    exec (.applyA4 c v m) s = .next { s with results := s.results ++ [.fail .invalidMode] } ∧
    exec (.applyB4 c v m) s = .next { s with results := s.results ++ [.fail .invalidMode] }

/-- The source's four tests of APPLY (R123): (a) a valid command can be read back and the other port keeps its value;
(b), (c) an invalid channel or value fails with the cache identical and no packet; (d) every packet sent is a good one. -/
def Obligations.ApplyPassesTheSourceTests : Prop :=
  ∀ (c v : Byte) (p : Port) (s : State), s.Idle →
    (∀ i : Fin 4, c.toNat = i.val + 1 → v.toNat ≤ 15 →
      ∃ t, exec (decode (.command [c, portByte p, v])) s = .next t ∧ t.results = s.results ++ [.ok] ∧
        exec (.get c.toNat p) t = .next { t with results := t.results ++ [.value (v.setWidth 4)] } ∧
        (∀ q, q ≠ p → readCell t.cache i q = readCell s.cache i q) ∧
        ∃ (l : List Sym) (w : PacketWord), t.pending = expand l ∧ withoutGaps l = frameSyms w ++ frameSyms w ++ frameSyms w ∧
          w.extractLsb' 12 4 ^^^ w.extractLsb' 8 4 ^^^ w.extractLsb' 4 4 ^^^ w.extractLsb' 0 4 = 0xF ∧
          w = packetWord (w.extractLsb' 12 2) (w.extractLsb' 8 4) (w.extractLsb' 4 4) ∧
          w.extractLsb' 12 2 = channelCode i ∧ w.extractLsb' 8 4 = readCell t.cache i .b ∧ w.extractLsb' 4 4 = readCell t.cache i .a ∧
          Even (ones w) ∧ 4 ≤ ones w ∧ ones w ≤ 12) ∧
    (c.toNat = 0 ∨ 5 ≤ c.toNat ∨ 16 ≤ v.toNat →
      ∃ t r, exec (decode (.command [c, portByte p, v])) s = .next t ∧ t.results = s.results ++ [.fail r] ∧
        t.cache = s.cache ∧ t.pending = [])

/-- SEND_CHANNEL in closed form (R124): `repeats` packets with the delay between them only (decision D11), none for a delay of 0,
and a failure with no trace for a channel outside 1..4 (D14); that success reports `ok` is log entry 11. -/
def Obligations.SendChannelSendsRepeatedPackets : Prop :=
  ∀ (c d : Nat) (s : State),
    (∀ i : Fin 4, c = i.val + 1 →
      let f := frameSyms (cachedWord s.cache i)
      exec (.sendChannel c 0 d) s = .next { s with results := s.results ++ [.ok] } ∧
      ∀ n : Nat, exec (.sendChannel c (n + 1) d) s = .next { s with
        pending := s.pending ++ expand (f ++ (List.replicate n ((if d = 0 then [] else [.G d]) ++ f)).flatten)
        results := s.results ++ [.ok] }) ∧
    (c = 0 ∨ 5 ≤ c → ∀ r, exec (.sendChannel c r d) s = .next { s with results := s.results ++ [.fail .invalidChannel] })

/-- Sending a channel twice with nothing between gives two identical traces (R44, R124 (d)). -/
def Obligations.SendChannelIsIdempotent : Prop :=
  ∀ (c r d : Nat) (s t u : State), exec (.sendChannel c r d) s = .next t → exec (.sendChannel c r d) t = .next u →
    ∃ es, t.pending = s.pending ++ es ∧ u.pending = t.pending ++ es ∧ u.cache = s.cache

/-- REFRESH_ALL (R126): the cached packets of channels 1, 2, 3, 4 in that order, each once, 5 ms between (decision D11), and `ok`;
no cell and not `LAST` is written. -/
def Obligations.RefreshSendsEveryChannelOnce : Prop :=
  ∀ s : State, s.Idle → exec .refreshAll s = .next { s with
    pending := expand (frameSyms (cachedWord s.cache 0) ++ [.G 5] ++ frameSyms (cachedWord s.cache 1) ++ [.G 5] ++
      frameSyms (cachedWord s.cache 2) ++ [.G 5] ++ frameSyms (cachedWord s.cache 3))
    results := s.results ++ [.ok] }

/-- The zeros after reset are data (R31): a refresh straight after reset sends all four channels with both outputs 0,
and after one command to port A of channel 1 the cell of port B is still 0 and goes out as N2 = 0. -/
def Obligations.ZeroAfterResetIsARealValue : Prop :=
  (∃ t l, exec .refreshAll State.reset = .next t ∧ t.pending = expand l ∧
    withoutGaps l = frameSyms (packetWord 0 0 0) ++ frameSyms (packetWord 1 0 0) ++ frameSyms (packetWord 2 0 0) ++
      frameSyms (packetWord 3 0 0)) ∧
  ∃ t l, exec (.applyA3 1 7) State.reset = .next t ∧ readCell t.cache 0 .a = 7 ∧ readCell t.cache 0 .b = 0 ∧
    t.pending = expand l ∧ withoutGaps l = frameSyms 0x407C ++ frameSyms 0x407C ++ frameSyms 0x407C

/-- Reset of an idle encoder is construction again and sends nothing (R170, R171; decision D15); what the environment holds is not the encoder's
and stays (log entry 12). -/
def Obligations.ResetOfAnIdleEncoderConstructsIt : Prop :=
  ∀ s : State, s.Idle → exec .reset s = .next { State.reset with
    requests := s.requests, results := s.results, emitted := s.emitted }

/-- Operations that are sequences of others (R76): SYMBOL, BIT, NIBBLE, ENCODE_AND_SEND, SEND_CHANNEL, REFRESH_ALL and APPLY are their expansions.
The results of inner calls go to the caller, so an expansion is compared with the outer operation's own result put in their place. -/
def Obligations.OperationsAreTheirExpansions : Prop :=
  (∀ (p : Nat) (s : State), exec (.symbol p) s =
    andThen (exec .mark s) fun t => .next { t with pending := t.pending ++ List.replicate (2 * p) .L }) ∧
  (∀ s : State, exec (.bit false) s = exec (.symbol Config.pause0) s ∧ exec (.bit true) s = exec (.symbol Config.pause1) s) ∧
  (∀ (n : Value) (s : State), exec (.nibble n) s =
    execAll [.bit (n.getLsbD 3), .bit (n.getLsbD 2), .bit (n.getLsbD 1), .bit (n.getLsbD 0)] s) ∧
  (∀ (i : Fin 4) (b a : Byte) (s : State), exec (.encodeAndSend (i.val + 1) b a) s =
    execAll [.symbol Config.pauseSS, .nibble (nibble1 (channelCode i)), .nibble (b.setWidth 4), .nibble (a.setWidth 4),
      .nibble (checksum (nibble1 (channelCode i)) (b.setWidth 4) (a.setWidth 4)), .symbol Config.pauseSS] s) ∧
  (∀ (i : Fin 4) (n d : Nat) (s : State),
    let send := exec (.encodeAndSend (i.val + 1) ((readCell s.cache i .b).setWidth 8) ((readCell s.cache i .a).setWidth 8)) s
    exec (.sendChannel (i.val + 1) 0 d) s = .next { s with results := s.results ++ [.ok] } ∧
    exec (.sendChannel (i.val + 1) 1 d) s = andThen send (fun t => .next { t with results := t.results ++ [.ok] }) ∧
    exec (.sendChannel (i.val + 1) (n + 2) d) s =
      andThen send (fun t => exec (.sendChannel (i.val + 1) (n + 1) d) (emitAll (delayEvents d) t))) ∧
  (∀ s u : State, s.Idle →
    andThen (exec (.sendChannel 1 1 0) s) (fun t1 =>
      andThen (exec (.sendChannel 2 1 0) (emitAll (delayEvents Config.refreshGapMs) t1)) (fun t2 =>
        andThen (exec (.sendChannel 3 1 0) (emitAll (delayEvents Config.refreshGapMs) t2)) (fun t3 =>
          exec (.sendChannel 4 1 0) (emitAll (delayEvents Config.refreshGapMs) t3)))) = .next u →
    exec .refreshAll s = .next { u with results := s.results ++ [.ok] }) ∧
  (∀ (c v : Byte) (p : Port) (s t u : State), s.Idle → exec (.set c p v) s = .next t → t.results = s.results ++ [.ok] →
    exec (.sendChannel c.toNat Config.applyRepeats Config.applyDelayMs) t = .next u →
    exec (decode (.command [c, portByte p, v])) s = .next { u with
      last := if Config.hasEcho then some { channel := c, port := p, value := v.setWidth 4 } else s.last
      results := s.results ++ [.ok] })

/-! ### Frames, invariants and bounds -/

/-- The operations that only send (R95, R100) append a trace that depends on their operands alone, begins high and ends low, and change nothing else. -/
def Obligations.SendersOnlyAppendTheirTrace : Prop :=
  ∀ i : Instr, i.onlySends = true → i.wellFormed = true →
    ∃ es : List Event, es.head? = some .H ∧ es.getLast? = some .L ∧
      ∀ s : State, exec i s = .next { s with pending := s.pending ++ es }

/-- The frame of every operation: only APPLY, SET and RESET change the cache or `LAST` (R23, R29); none takes a request or drives the pin,
and but for RESET each leaves the pin and only appends to the pending events and the results. -/
def Obligations.OperationsKeepWhatTheyDoNotWrite : Prop :=
  ∀ (i : Instr) (s t : State), i.wellFormed = true → exec i s = .next t →
    (i.mayWrite = false → t.cache = s.cache ∧ t.last = s.last) ∧
    t.requests = s.requests ∧ t.emitted = s.emitted ∧ (∃ rs, t.results = s.results ++ rs) ∧
    (i ≠ .reset → t.pin = s.pin ∧ ∃ es, t.pending = s.pending ++ es)

/-- What a step does to the cache (R23, R45): driving an event, idling, a tick and a rejected command change no cell;
any other accepted request but a reset changes no cell but its target, the cell `channelIndex` and the port operand name, which then holds
the value; without a target it changes none. Acceptance only when idle is decision D6, its effect at once D17. -/
def Obligations.StepChangesAtMostOneCell : Prop :=
  ∀ s t : State, step s = .next t →
    (s.pending ≠ [] ∨ s.requests = [] → t.cache = s.cache) ∧
    ∀ (r : Request) (rs : List Request), s.pending = [] → s.requests = r :: rs →
      (r = .tick → t.cache = s.cache) ∧
      (∀ (cmd : List Byte) (reason : Reason), r = .command cmd → t.results = s.results ++ [.fail reason] → t.cache = s.cache) ∧
      (decode r ≠ .reset →
        ((decode r).target = none → t.cache = s.cache) ∧
        ∀ (i : Fin 4) (p : Port) (v : Value), (decode r).target = some (i, p, v) →
          readCell t.cache i p = v ∧ ∀ j q, (j, q) ≠ (i, p) → readCell t.cache j q = readCell s.cache j q)

/-- Every step keeps the invariant (R13, R22, R29; the resting level of the pin is decision D3). -/
def Obligations.StepKeepsTheInvariant : Prop :=
  ∀ s t : State, s.Inv → step s = .next t → t.Inv

/-- Whatever the environment asks for, the whole waveform stays a sequence of whole, well-checksummed Combo PWM packets and gaps
(R48, R65, R72): no other symbol, no cut packet, no overlap. -/
def Obligations.StepKeepsTheWaveformLegal : Prop :=
  ∀ s t : State, s.ExternalOnly → s.WaveformLegal → step s = .next t → t.WaveformLegal

/-- As long as only the environment's requests come, `LAST` names a cell that holds the value it names (R23, R29). -/
def Obligations.StepKeepsEchoAndCacheInAgreement : Prop :=
  ∀ s t : State, s.Inv → s.ExternalOnly → s.EchoMatchesCache → step s = .next t → t.EchoMatchesCache

/-- The trace of an accepted request is bounded (R185, which the spec derives): it is a sequence of packets and gaps, for REFRESH_ALL at most
four and three, for every other operation at most three and two, each packet of at most the length that twelve ones give it. -/
def Obligations.AcceptedTraceIsBounded : Prop :=
  ∀ (i : Instr) (s t : State), i.external = true → s.Idle → exec i s = .next t →
    let longest := 216 + 4 * Config.pauseSS + 24 * Config.pause1 + 8 * Config.pause0
    ∃ items : List OutItem, t.pending = expand (items.flatMap OutItem.syms) ∧
      (∀ x ∈ items, x.isPacket = true → (expand x.syms).length ≤ longest) ∧
      (items.filter fun x => x.isPacket).length ≤ (if i = .refreshAll then 4 else 3) ∧
      (items.filter fun x => !x.isPacket).length ≤ (if i = .refreshAll then 3 else 2) ∧
      t.pending.length ≤ (if i = .refreshAll then 4 * longest + 3 else 3 * longest + 2)

/-- A command and a tick that both wait may be accepted in either order (R149 (b); decision D6): the cache and `LAST` end the same,
and where the command is rejected the waveform is the same too. -/
def Obligations.EitherOrderEndsInTheSameCache : Prop :=
  ∀ (cmd : List Byte) (s : State), s.Idle →
    let ct := serveAll [.command cmd, .tick] s
    let tc := serveAll [.tick, .command cmd] s
    ct.cache = tc.cache ∧ ct.last = tc.last ∧ (verdict cmd ≠ none → ct.emitted = tc.emitted)
end

