-- ==== Sys2Proof/Laws/State.lean ====
section
/-!
SUPPORT. One lemma per field per named update of the state, so that no proof unfolds a record update.
-/
namespace Sys2Proof.Machine

@[simp] theorem emitAll_cache (es : List Event) (s : State) : (emitAll es s).cache = s.cache := rfl
@[simp] theorem emitAll_pin (es : List Event) (s : State) : (emitAll es s).pin = s.pin := rfl
@[simp] theorem emitAll_pending (es : List Event) (s : State) : (emitAll es s).pending = s.pending ++ es := rfl
@[simp] theorem emitAll_last (es : List Event) (s : State) : (emitAll es s).last = s.last := rfl
@[simp] theorem emitAll_requests (es : List Event) (s : State) : (emitAll es s).requests = s.requests := rfl
@[simp] theorem emitAll_results (es : List Event) (s : State) : (emitAll es s).results = s.results := rfl
@[simp] theorem emitAll_emitted (es : List Event) (s : State) : (emitAll es s).emitted = s.emitted := rfl

@[simp] theorem report_cache (r : Result) (s : State) : (report r s).cache = s.cache := rfl
@[simp] theorem report_pin (r : Result) (s : State) : (report r s).pin = s.pin := rfl
@[simp] theorem report_pending (r : Result) (s : State) : (report r s).pending = s.pending := rfl
@[simp] theorem report_last (r : Result) (s : State) : (report r s).last = s.last := rfl
@[simp] theorem report_requests (r : Result) (s : State) : (report r s).requests = s.requests := rfl
@[simp] theorem report_results (r : Result) (s : State) : (report r s).results = s.results ++ [r] := rfl
@[simp] theorem report_emitted (r : Result) (s : State) : (report r s).emitted = s.emitted := rfl

@[simp] theorem rejection_cache (r : Reason) (s : State) : (rejection r s).cache = s.cache := rfl
@[simp] theorem rejection_pin (r : Reason) (s : State) : (rejection r s).pin = s.pin := rfl
@[simp] theorem rejection_pending (r : Reason) (s : State) : (rejection r s).pending = s.pending := rfl
@[simp] theorem rejection_last (r : Reason) (s : State) : (rejection r s).last = s.last := rfl
@[simp] theorem rejection_requests (r : Reason) (s : State) : (rejection r s).requests = s.requests := rfl
@[simp] theorem rejection_results (r : Reason) (s : State) : (rejection r s).results = s.results ++ [.fail r] := rfl
@[simp] theorem rejection_emitted (r : Reason) (s : State) : (rejection r s).emitted = s.emitted := rfl

@[simp] theorem driveEvent_cache (e : Event) (rest : List Event) (s : State) : (driveEvent e rest s).cache = s.cache := rfl
@[simp] theorem driveEvent_pin (e : Event) (rest : List Event) (s : State) : (driveEvent e rest s).pin = e.level := rfl
@[simp] theorem driveEvent_pending (e : Event) (rest : List Event) (s : State) : (driveEvent e rest s).pending = rest := rfl
@[simp] theorem driveEvent_last (e : Event) (rest : List Event) (s : State) : (driveEvent e rest s).last = s.last := rfl
@[simp] theorem driveEvent_requests (e : Event) (rest : List Event) (s : State) : (driveEvent e rest s).requests = s.requests := rfl
@[simp] theorem driveEvent_results (e : Event) (rest : List Event) (s : State) : (driveEvent e rest s).results = s.results := rfl
@[simp] theorem driveEvent_emitted (e : Event) (rest : List Event) (s : State) : (driveEvent e rest s).emitted = s.emitted ++ [e] := rfl

@[simp] theorem settle_cache (s : State) : (settle s).cache = s.cache := rfl
@[simp] theorem settle_pin (s : State) : (settle s).pin = s.pending.foldl (fun _ e => e.level) s.pin := rfl
@[simp] theorem settle_pending (s : State) : (settle s).pending = [] := rfl
@[simp] theorem settle_last (s : State) : (settle s).last = s.last := rfl
@[simp] theorem settle_requests (s : State) : (settle s).requests = s.requests := rfl
@[simp] theorem settle_results (s : State) : (settle s).results = s.results := rfl
@[simp] theorem settle_emitted (s : State) : (settle s).emitted = s.emitted ++ s.pending := rfl

@[simp] theorem recordApplied_cache (c : Byte) (p : Port) (v : Byte) (s : State) : (recordApplied c p v s).cache = s.cache := rfl
@[simp] theorem recordApplied_pin (c : Byte) (p : Port) (v : Byte) (s : State) : (recordApplied c p v s).pin = s.pin := rfl
@[simp] theorem recordApplied_pending (c : Byte) (p : Port) (v : Byte) (s : State) : (recordApplied c p v s).pending = s.pending := rfl
@[simp] theorem recordApplied_last (c : Byte) (p : Port) (v : Byte) (s : State) : (recordApplied c p v s).last = if Config.hasEcho then some { channel := c, port := p, value := v.setWidth 4 } else s.last := rfl
@[simp] theorem recordApplied_requests (c : Byte) (p : Port) (v : Byte) (s : State) : (recordApplied c p v s).requests = s.requests := rfl
@[simp] theorem recordApplied_results (c : Byte) (p : Port) (v : Byte) (s : State) : (recordApplied c p v s).results = s.results := rfl
@[simp] theorem recordApplied_emitted (c : Byte) (p : Port) (v : Byte) (s : State) : (recordApplied c p v s).emitted = s.emitted := rfl

@[simp] theorem construct_cache (s : State) : (construct s).cache = State.reset.cache := rfl
@[simp] theorem construct_pin (s : State) : (construct s).pin = .low := rfl
@[simp] theorem construct_pending (s : State) : (construct s).pending = [] := rfl
@[simp] theorem construct_last (s : State) : (construct s).last = none := rfl
@[simp] theorem construct_requests (s : State) : (construct s).requests = s.requests := rfl
@[simp] theorem construct_results (s : State) : (construct s).results = s.results := rfl
@[simp] theorem construct_emitted (s : State) : (construct s).emitted = s.emitted := rfl

@[simp] theorem reset_pin : State.reset.pin = .low := rfl
@[simp] theorem reset_pending : State.reset.pending = [] := rfl
@[simp] theorem reset_last : State.reset.last = none := rfl
@[simp] theorem reset_requests : State.reset.requests = [] := rfl
@[simp] theorem reset_results : State.reset.results = [] := rfl
@[simp] theorem reset_emitted : State.reset.emitted = [] := rfl

end Sys2Proof.Machine
end

