-- ==== Sys2Proof/Laws/Ops.lean ====
section
/-!
SUPPORT. What each shared operation can do, said once: the cells of the cache, operand checks, acceptance, SET, SEND_CHANNEL and APPLY.
-/
namespace Sys2Proof.Machine

/-! ### Idle and busy -/

@[simp] theorem busy_eq_false {s : State} : s.busy = false ↔ s.pending = [] := by simp [State.busy]

@[simp] theorem busy_eq_true {s : State} : s.busy = true ↔ s.pending ≠ [] := by simp [State.busy]

/-- An idle encoder accepts. -/
theorem acceptWhenIdle_idle {s : State} (h : s.pending = []) (r : Refusal) (t : State) :
    acceptWhenIdle r s t = .next t := by simp [acceptWhenIdle, h]

/-- A busy encoder does not. -/
theorem acceptWhenIdle_busy {s : State} (h : s.pending ≠ []) (r : Refusal) (t : State) :
    acceptWhenIdle r s t = .refused r := by simp [acceptWhenIdle, h]

/-- Acceptance answers a next state only from an idle encoder, and then the one given. -/
theorem acceptWhenIdle_next {s t u : State} {r : Refusal} (h : acceptWhenIdle r s t = .next u) :
    s.pending = [] ∧ u = t := by
  by_cases hb : s.pending = []
  · rw [acceptWhenIdle_idle hb] at h
    exact ⟨hb, by injection h with h; exact h.symm⟩
  · rw [acceptWhenIdle_busy hb] at h
    cases h

/-! ### Channels -/

theorem channelIndex_eq_some {c : Nat} {i : Fin 4} : channelIndex c = some i ↔ c = i.val + 1 := by
  unfold channelIndex
  split
  · simp only [Option.some.injEq, Fin.ext_iff]
    omega
  · have := i.isLt
    simp only [reduceCtorEq, false_iff]
    omega

theorem channelIndex_eq_none {c : Nat} : channelIndex c = none ↔ c < 1 ∨ 4 < c := by
  unfold channelIndex
  split
  · simp only [reduceCtorEq, false_iff]
    omega
  · simp only [true_iff]
    omega

@[simp] theorem channelIndex_succ (i : Fin 4) : channelIndex (i.val + 1) = some i :=
  channelIndex_eq_some.2 rfl

/-! ### Cells of the cache -/

@[simp] theorem cell_withCell_same (c : ChannelState) (v : Value) (p : Port) : (c.withCell v p).cell p = v := by
  cases p <;> rfl

theorem cell_withCell_other (c : ChannelState) (v : Value) {p q : Port} (h : q ≠ p) :
    (c.withCell v p).cell q = c.cell q := by
  cases p <;> cases q <;> first | rfl | exact absurd rfl h

/-- A read of the cell written gives the value written. -/
@[simp] theorem readCell_writeCell_same (c : Cache) (i : Fin 4) (p : Port) (v : Value) :
    readCell (writeCell c i p v) i p = v := by
  simp [readCell, writeCell, Vector.get_eq_getElem]

/-- A write leaves every other cell alone. -/
theorem readCell_writeCell_other (c : Cache) {i j : Fin 4} {p q : Port} (v : Value) (h : (j, q) ≠ (i, p)) :
    readCell (writeCell c i p v) j q = readCell c j q := by
  by_cases hij : j = i
  · subst hij
    have hq : q ≠ p := fun e => h (by rw [e])
    simp [readCell, writeCell, Vector.get_eq_getElem, cell_withCell_other _ _ hq]
  · have : i.val ≠ j.val := fun e => hij (Fin.ext e.symm)
    simp [readCell, writeCell, Vector.get_eq_getElem, Vector.getElem_set_ne, this]

@[simp] theorem readCell_reset (i : Fin 4) (p : Port) : readCell State.reset.cache i p = 0 := by
  revert i p
  rintro i (_ | _) <;> revert i <;> decide

/-! ### Decoding a command -/

/-- A command decodes to its first three fields with a named port, and a four-byte one only with the Combo PWM mode (R121). -/
theorem commandOperands_ok {cmd : List Byte} {c v : Byte} {p : Port} (h : commandOperands cmd = .ok (c, p, v)) :
    ∃ b, portOf b = some p ∧ (cmd = [c, b, v] ∨ cmd = [c, b, v, Config.modeComboPwm]) := by
  unfold commandOperands at h
  split at h
  · unfold commandWithPort at h
    split at h
    · rename_i hp
      simp only [Except.ok.injEq, Prod.mk.injEq] at h
      obtain ⟨rfl, rfl, rfl⟩ := h
      exact ⟨_, hp, .inl rfl⟩
    · cases h
  · split at h
    · cases h
    · rename_i hm
      unfold commandWithPort at h
      split at h
      · rename_i hp
        simp only [Except.ok.injEq, Prod.mk.injEq] at h
        obtain ⟨rfl, rfl, rfl⟩ := h
        refine ⟨_, hp, .inr ?_⟩
        rw [not_not.1 hm]
      · cases h
  · cases h

@[simp] theorem portOf_portByte (p : Port) : portOf (portByte p) = some p := by cases p <;> rfl

/-! ### SET, SEND_CHANNEL, APPLY -/

/-- SET writes one cell, or says which check failed (R112). -/
theorem setCell_cases (c : Byte) (p : Port) (v : Byte) (s : State) :
    (∃ i, channelIndex c.toNat = some i ∧ v.toNat ≤ 15 ∧
      setCell c p v s = .ok { s with cache := writeCell s.cache i p (v.setWidth 4) }) ∨
    (channelIndex c.toNat = none ∧ setCell c p v s = .error .invalidChannel) ∨
    (channelIndex c.toNat ≠ none ∧ 15 < v.toNat ∧ setCell c p v s = .error .invalidValue) := by
  unfold setCell
  cases h : channelIndex c.toNat with
  | none => exact .inr (.inl ⟨rfl, rfl⟩)
  | some i =>
    by_cases hv : 15 < v.toNat
    · exact .inr (.inr ⟨by simp, hv, by simp [hv]⟩)
    · exact .inl ⟨i, rfl, by omega, by simp [hv]⟩

/-- What an accepted command leaves (R120). -/
def applied (i : Fin 4) (c : Byte) (p : Port) (v : Byte) (s : State) : State :=
  { s with
    cache := writeCell s.cache i p (v.setWidth 4)
    last := if Config.hasEcho then some { channel := c, port := p, value := v.setWidth 4 } else s.last
    pending := s.pending ++
      sendEvents (writeCell s.cache i p (v.setWidth 4)) i Config.applyRepeats Config.applyDelayMs
    results := s.results ++ [.ok] }

/-- APPLY rejects with a reason and does nothing else, or it applies the decoded command (R120). -/
theorem applyCommand_cases (cmd : List Byte) (s : State) :
    (∃ r, applyCommand cmd s = rejection r s) ∨
    (∃ c p v i, commandOperands cmd = .ok (c, p, v) ∧ channelIndex c.toNat = some i ∧ v.toNat ≤ 15 ∧
      applyCommand cmd s = applied i c p v s) := by
  unfold applyCommand
  cases h : commandOperands cmd with
  | error r => exact .inl ⟨r, rfl⟩
  | ok t =>
    obtain ⟨c, p, v⟩ := t
    obtain ⟨i, hi, hv, hs⟩ | ⟨_, hs⟩ | ⟨_, _, hs⟩ := setCell_cases c p v s
    · refine .inr ⟨c, p, v, i, rfl, hi, hv, ?_⟩
      simp [hs, sendChannel, hi, applied, recordApplied, emitAll, report]
    · exact .inl ⟨.invalidChannel, by simp [hs]⟩
    · exact .inl ⟨.invalidValue, by simp [hs]⟩

/-- APPLY of a decoded command with a legal channel and value applies it. -/
theorem applyCommand_applied {cmd : List Byte} {c v : Byte} {p : Port} {i : Fin 4} (s : State)
    (hc : commandOperands cmd = .ok (c, p, v)) (hi : channelIndex c.toNat = some i) (hv : v.toNat ≤ 15) :
    applyCommand cmd s = applied i c p v s := by
  have hv' : ¬15 < v.toNat := by omega
  simp [applyCommand, hc, setCell, hi, hv', sendChannel, applied, recordApplied, emitAll, report]

/-- SEND_CHANNEL appends the packets of a legal channel, and rejects any other (R124). -/
theorem sendChannel_cases (c r d : Nat) (s : State) :
    (∃ i, channelIndex c = some i ∧ sendChannel c r d s = .ok (emitAll (sendEvents s.cache i r d) s)) ∨
    (channelIndex c = none ∧ sendChannel c r d s = .error .invalidChannel) := by
  unfold sendChannel
  cases h : channelIndex c with
  | none => exact .inr ⟨rfl, rfl⟩
  | some i => exact .inl ⟨i, rfl, rfl⟩

end Sys2Proof.Machine
end

