-- ==== Sys2Proof/Laws/Exec.lean ====
section
/-!
SUPPORT. What an operation does to the state, said once for each kind of operation: those selected from outside, those that only send, and the rest.
-/
namespace Sys2Proof.Machine

/-- An operation selected from outside is APPLY of some bytes, REFRESH_ALL or RESET, accepted only when idle (R77, R147). -/
theorem exec_external {i : Instr} (h : i.external = true) :
    (∃ cmd, (∀ s, exec i s = acceptWhenIdle .busy s (applyCommand cmd s)) ∧ i ≠ .reset ∧ i ≠ .refreshAll) ∨
    i = .refreshAll ∨ i = .reset := by
  cases i <;> first
    | exact .inl ⟨_, fun _ => rfl, by simp, by simp⟩
    | exact .inr (.inl rfl)
    | exact .inr (.inr rfl)
    | cases h

/-- A command is APPLY of its own bytes (R77, R120, R121). -/
theorem exec_command (cmd : List Byte) (s : State) :
    exec (decode (.command cmd)) s = acceptWhenIdle .busy s (applyCommand cmd s) := by
  have hp : ∀ {b : Byte} {p : Port}, portOf b = some p → b = portByte p := by
    intro b p h
    unfold portOf at h
    split at h
    · rename_i hb
      cases h
      exact BitVec.eq_of_toNat_eq hb
    · split at h
      · rename_i hb
        cases h
        exact BitVec.eq_of_toNat_eq hb
      · cases h
  simp only [decode]
  unfold decodeCommand
  split
  · split
    · rename_i h
      rw [hp h]
      rfl
    · rename_i h
      rw [hp h]
      rfl
    · rfl
  · split
    · rename_i h
      rw [hp h]
      rfl
    · rename_i h
      rw [hp h]
      rfl
    · rfl
  · rfl

/-- A request of the environment decodes to an operation selected from outside (R77). -/
theorem decode_external {r : Request} (h : r.external = true) : (decode r).external = true := by
  cases r with
  | command cmd =>
    simp only [decode]
    unfold decodeCommand
    split
    · split <;> rfl
    · split <;> rfl
    · rfl
  | tick => rfl
  | reset => rfl
  | call i => cases h

/-- An operation that only sends appends a trace fixed by its operands, or is refused in every state (R95, R100). -/
theorem exec_onlySends {i : Instr} (h : i.onlySends = true) :
    (∃ es, ∀ s, exec i s = .next (emitAll es s)) ∨ ∃ r, ∀ s, exec i s = .refused r := by
  cases i with
  | encodeAndSend c b a =>
    cases hc : channelIndex c with
    | some i =>
      exact .inl ⟨packetEvents (channelCode i) (maskOutput b) (maskOutput a), fun s => by simp only [exec, execEncodeAndSend, hc]⟩
    | none => exact .inr ⟨.channelPrecondition, fun s => by simp only [exec, execEncodeAndSend, hc]⟩
  | pktComboPwm code b a l =>
    by_cases hl : l = checksum (nibble1 code) b a
    · exact .inl ⟨frameEvents (encodePacket code b a l), fun s => if_pos hl⟩
    · exact .inr ⟨.packetChecksum, fun s => if_neg hl⟩
  | nibble n => exact .inl ⟨_, fun _ => rfl⟩
  | bit v => exact .inl ⟨_, fun _ => rfl⟩
  | symbol p => exact .inl ⟨_, fun _ => rfl⟩
  | mark => exact .inl ⟨_, fun _ => rfl⟩
  | symSS => exact .inl ⟨_, fun _ => rfl⟩
  | symB0 => exact .inl ⟨_, fun _ => rfl⟩
  | symB1 => exact .inl ⟨_, fun _ => rfl⟩
  | applyA3 _ _ => cases h
  | applyB3 _ _ => cases h
  | applyA4 _ _ _ => cases h
  | applyB4 _ _ _ => cases h
  | applyReject _ => cases h
  | refreshAll => cases h
  | reset => cases h
  | sendChannel _ _ _ => cases h
  | get _ _ => cases h
  | set _ _ _ => cases h

/-- SET writes one cell and reports `ok`, or rejects (R112). -/
theorem exec_set_cases (c : Byte) (p : Port) (v : Byte) (s : State) :
    (∃ i, channelIndex c.toNat = some i ∧ v.toNat ≤ 15 ∧ exec (.set c p v) s =
      .next (report .ok { s with cache := writeCell s.cache i p (v.setWidth 4) })) ∨
    ∃ r, exec (.set c p v) s = .next (rejection r s) := by
  obtain ⟨i, hi, hv, hs⟩ | ⟨_, hs⟩ | ⟨_, _, hs⟩ := setCell_cases c p v s
  · exact .inl ⟨i, hi, hv, by simp [exec, execSet, hs]⟩
  · exact .inr ⟨.invalidChannel, by simp only [exec, execSet, hs]⟩
  · exact .inr ⟨.invalidValue, by simp only [exec, execSet, hs]⟩

/-- SEND_CHANNEL appends the packets and reports `ok`, or rejects (R124). -/
theorem exec_sendChannel_cases (c r d : Nat) (s : State) :
    (∃ i, channelIndex c = some i ∧ exec (.sendChannel c r d) s =
      .next (report .ok (emitAll (sendEvents s.cache i r d) s))) ∨
    (channelIndex c = none ∧ exec (.sendChannel c r d) s = .next (rejection .invalidChannel s)) := by
  obtain ⟨i, hi, h⟩ | ⟨hi, h⟩ := sendChannel_cases c r d s
  · exact .inl ⟨i, hi, by simp only [exec, execSendChannel, h]⟩
  · exact .inr ⟨hi, by simp only [exec, execSendChannel, h]⟩

/-- Everything an operation can do when it answers a next state: append a trace; hand back results; APPLY some bytes; construct;
refresh; write one cell; or send a channel. -/
theorem exec_cases {i : Instr} {s t : State} (h : exec i s = .next t) :
    (i.onlySends = true ∧ ∃ es, t = emitAll es s) ∨
    (i.external = false ∧ ∃ r, t = report r s) ∨
    (s.pending = [] ∧ i.external = true ∧ i ≠ .reset ∧ ∃ cmd, t = applyCommand cmd s ∧ ∀ u, exec i u = acceptWhenIdle .busy u (applyCommand cmd u)) ∨
    (s.pending = [] ∧ i = .reset ∧ t = construct s) ∨
    (s.pending = [] ∧ i = .refreshAll ∧ t = report .ok (emitAll (refreshEvents s.cache [0, 1, 2, 3]) s)) ∨
    (∃ c p v j, i = .set c p v ∧ channelIndex c.toNat = some j ∧ v.toNat ≤ 15 ∧
      t = report .ok { s with cache := writeCell s.cache j p (v.setWidth 4) }) ∨
    (∃ c r d j, i = .sendChannel c r d ∧ channelIndex c = some j ∧ t = report .ok (emitAll (sendEvents s.cache j r d) s)) := by
  by_cases hs : i.onlySends = true
  · obtain ⟨es, he⟩ | ⟨r, he⟩ := exec_onlySends hs
    · rw [he] at h
      injection h with h
      exact .inl ⟨hs, es, h.symm⟩
    · rw [he] at h
      cases h
  by_cases hx : i.external = true
  · obtain ⟨cmd, hc, hr, _⟩ | rfl | rfl := exec_external hx
    · rw [hc] at h
      obtain ⟨hp, ht⟩ := acceptWhenIdle_next h
      exact .inr (.inr (.inl ⟨hp, hx, hr, cmd, ht, hc⟩))
    · obtain ⟨hp, ht⟩ := acceptWhenIdle_next h
      exact .inr (.inr (.inr (.inr (.inl ⟨hp, rfl, ht⟩))))
    · obtain ⟨hp, ht⟩ := acceptWhenIdle_next h
      exact .inr (.inr (.inr (.inl ⟨hp, rfl, ht⟩)))
  cases i <;> first
    | exact absurd rfl hs
    | exact absurd rfl hx
    | skip
  case sendChannel c r d =>
    obtain ⟨j, hj, h'⟩ | ⟨_, h'⟩ := exec_sendChannel_cases c r d s <;> rw [h] at h' <;> injection h' with h'
    · exact .inr (.inr (.inr (.inr (.inr (.inr ⟨c, r, d, j, rfl, hj, h'⟩)))))
    · exact .inr (.inl ⟨rfl, _, h'⟩)
  case get c p =>
    injection h with h
    exact .inr (.inl ⟨rfl, _, h.symm⟩)
  case set c p v =>
    obtain ⟨j, hj, hv, h'⟩ | ⟨r, h'⟩ := exec_set_cases c p v s <;> rw [h] at h' <;> injection h' with h'
    · exact .inr (.inr (.inr (.inr (.inr (.inl ⟨c, p, v, j, rfl, hj, hv, h'⟩)))))
    · exact .inr (.inl ⟨rfl, _, h'⟩)

end Sys2Proof.Machine
end

