-- ==== Sys2Proof/Laws/PerInstr.lean ====
section
/-!
SUPPORT. Statements about every operation as syntax, one lemma per constructor.
-/
namespace Sys2Proof.Laws

/-- The request that selects an operation is one the environment can make exactly when the operation is selected from outside (R77). -/
def EncodeExternal.Statement (i : Instr) : Prop := (encode i).external = i.external

theorem EncodeExternal.applyA3 (c v : Byte) : EncodeExternal.Statement (.applyA3 c v) := rfl
theorem EncodeExternal.applyB3 (c v : Byte) : EncodeExternal.Statement (.applyB3 c v) := rfl
theorem EncodeExternal.applyA4 (c v m : Byte) : EncodeExternal.Statement (.applyA4 c v m) := rfl
theorem EncodeExternal.applyB4 (c v m : Byte) : EncodeExternal.Statement (.applyB4 c v m) := rfl
theorem EncodeExternal.applyReject (bytes : List Byte) : EncodeExternal.Statement (.applyReject bytes) := rfl
theorem EncodeExternal.refreshAll : EncodeExternal.Statement .refreshAll := rfl
theorem EncodeExternal.reset : EncodeExternal.Statement .reset := rfl
theorem EncodeExternal.sendChannel (c r d : Nat) : EncodeExternal.Statement (.sendChannel c r d) := rfl
theorem EncodeExternal.encodeAndSend (c : Nat) (b a : Byte) : EncodeExternal.Statement (.encodeAndSend c b a) := rfl
theorem EncodeExternal.get (c : Nat) (p : Port) : EncodeExternal.Statement (.get c p) := rfl
theorem EncodeExternal.set (c : Byte) (p : Port) (v : Byte) : EncodeExternal.Statement (.set c p v) := rfl
theorem EncodeExternal.nibble (n : Value) : EncodeExternal.Statement (.nibble n) := rfl
theorem EncodeExternal.bit (v : Bool) : EncodeExternal.Statement (.bit v) := rfl
theorem EncodeExternal.symbol (p : Nat) : EncodeExternal.Statement (.symbol p) := rfl
theorem EncodeExternal.mark : EncodeExternal.Statement .mark := rfl
theorem EncodeExternal.pktComboPwm (code : BitVec 2) (b a l : Value) :
    EncodeExternal.Statement (.pktComboPwm code b a l) := rfl
theorem EncodeExternal.symSS : EncodeExternal.Statement .symSS := rfl
theorem EncodeExternal.symB0 : EncodeExternal.Statement .symB0 := rfl
theorem EncodeExternal.symB1 : EncodeExternal.Statement .symB1 := rfl

end Sys2Proof.Laws
end

