-- ==== Sys2Proof/Laws/Step.lean ====
section
/-!
SUPPORT. Everything a step can do, said once, and how steps follow one another.
-/
namespace Sys2Proof.Machine

/-- A step drives one event, or stays idle, or accepts the next request. -/
theorem step_cases {s t : State} (h : step s = .next t) :
    (∃ e rest, s.pending = e :: rest ∧ t = driveEvent e rest s) ∨
    (s.pending = [] ∧ s.requests = [] ∧ t = s) ∨
    (∃ r rs, s.pending = [] ∧ s.requests = r :: rs ∧ exec (decode r) { s with requests := rs } = .next t) := by
  unfold step at h
  split at h
  · rename_i e rest hp
    injection h with h
    exact .inl ⟨e, rest, hp, h.symm⟩
  · rename_i hp
    split at h
    · rename_i hr
      injection h with h
      exact .inr (.inl ⟨hp, hr, h.symm⟩)
    · rename_i r rs hr
      exact .inr (.inr ⟨r, rs, hp, hr, h⟩)

/-- A run is its first part and then its rest. -/
theorem run_add {M : Host.Core} {m n : Nat} {s t : M.State} (h : M.run m s = .next t) : M.run (m + n) s = M.run n t := by
  induction m generalizing s with
  | zero =>
    injection h with h
    rw [h, Nat.zero_add]
  | succ m ih =>
    rw [Nat.succ_add]
    simp only [Host.Core.run] at h ⊢
    cases hs : M.step s with
    | next u =>
      rw [hs] at h
      exact ih h
    | fault r =>
      rw [hs] at h
      cases h
    | refused r =>
      rw [hs] at h
      cases h

end Sys2Proof.Machine
end

