-- ==== Sys2Proof/Laws/Target.lean ====
section
/-!
SUPPORT. The target of SET and APPLY is the cell the operations write.
-/
namespace Sys2Proof.Machine

theorem setTarget_eq_some {c v : Byte} {p q : Port} {i : Fin 4} {w : Value} :
    setTarget c p v = some (i, q, w) ↔ channelIndex c.toNat = some i ∧ v.toNat ≤ 15 ∧ q = p ∧ w = v.setWidth 4 := by
  unfold setTarget
  split
  · simp only [Option.map_eq_some_iff, Prod.mk.injEq]
    constructor
    · rintro ⟨_, h, rfl, rfl, rfl⟩
      exact ⟨h, ‹_›, rfl, rfl⟩
    · rintro ⟨h, _, rfl, rfl⟩
      exact ⟨i, h, rfl, rfl, rfl⟩
  · simp_all

/-- SET writes its target, or is rejected where it has none (R112). -/
theorem setCell_target (c : Byte) (p : Port) (v : Byte) (s : State) :
    (∃ i, setTarget c p v = some (i, p, v.setWidth 4) ∧
      setCell c p v s = .ok { s with cache := writeCell s.cache i p (v.setWidth 4) }) ∨
    (setTarget c p v = none ∧ ∃ r, setCell c p v s = .error r) := by
  obtain ⟨i, hi, hv, hs⟩ | ⟨hi, hs⟩ | ⟨_, hv, hs⟩ := setCell_cases c p v s
  · exact .inl ⟨i, setTarget_eq_some.2 ⟨hi, hv, rfl, rfl⟩, hs⟩
  · exact .inr ⟨by simp [setTarget, hi], _, hs⟩
  · exact .inr ⟨by simp [setTarget, Nat.not_le.2 hv], _, hs⟩

/-- APPLY writes its target, or is rejected where it has none (R120, R121). -/
theorem applyCommand_target (cmd : List Byte) (s : State) :
    (∃ i c p v, commandTarget cmd = some (i, p, v.setWidth 4) ∧ applyCommand cmd s = applied i c p v s) ∨
    (commandTarget cmd = none ∧ ∃ r, applyCommand cmd s = rejection r s) := by
  unfold commandTarget
  cases h : commandOperands cmd with
  | error r => exact .inr ⟨rfl, r, by simp [applyCommand, h]⟩
  | ok o =>
    obtain ⟨c, p, v⟩ := o
    obtain ⟨i, ht, _⟩ | ⟨ht, r, hs⟩ := setCell_target c p v s
    · obtain ⟨hi, hv, _⟩ := setTarget_eq_some.1 ht
      exact .inl ⟨i, c, p, v, ht, applyCommand_applied s h hi hv⟩
    · exact .inr ⟨ht, r, by simp [applyCommand, h, hs]⟩

end Sys2Proof.Machine
end

