-- ==== Sys2Proof/Laws/Waveform.lean ====
section
/-!
SUPPORT. The traces of the operations as symbol traces (R94), and how every one of them ends.
-/
namespace Sys2Proof.Machine

@[simp] theorem expand_nil : expand [] = [] := rfl

@[simp] theorem expand_append (l m : List Sym) : expand (l ++ m) = expand l ++ expand m := by
  simp [expand]

@[simp] theorem expand_cons (x : Sym) (l : List Sym) : expand (x :: l) = expandOne x ++ expand l := by
  simp [expand]

theorem symbolEvents_pauseSS : symbolEvents Config.pauseSS = expandOne .SS := rfl

theorem bitEvents_eq_expandOne (v : Bool) : bitEvents v = expandOne (bitSym v) := by
  cases v <;> rfl

/-- The bits of a word go out as their symbols, most significant first. -/
theorem bitsEvents_eq_expand {w : Nat} (n : BitVec w) (k : Nat) :
    bitsEvents n k = expand ((List.range k).map fun j => bitSym (n.getLsbD (k - 1 - j))) := by
  induction k with
  | zero => rfl
  | succ k ih =>
    rw [bitsEvents, ih, bitEvents_eq_expandOne, List.range_succ_eq_map, List.map_cons, expand_cons, List.map_map]
    congr 2
    refine List.map_congr_left fun j _ => ?_
    simp only [Function.comp]
    congr 2
    omega

theorem frameEvents_eq_expand (w : PacketWord) : frameEvents w = expand (frameSyms w) := by
  simp [frameEvents, frameSyms, bitsEvents_eq_expand, symbolEvents_pauseSS]

theorem nibbleEvents_eq_expand (n : Value) : nibbleEvents n = expand (nibbleSyms n) := by
  rw [nibbleEvents, bitsEvents_eq_expand]
  rfl

/-- A frame is its four nibbles between start and stop symbol. -/
theorem frameSyms_nibbles (n1 n2 n3 n4 : Value) :
    frameSyms (n1 ++ n2 ++ n3 ++ n4) =
      [.SS] ++ nibbleSyms n1 ++ nibbleSyms n2 ++ nibbleSyms n3 ++ nibbleSyms n4 ++ [.SS] := by
  have key : ∀ k, (n1 ++ n2 ++ n3 ++ n4).getLsbD k = if k < 4 then n4.getLsbD k else if k - 4 < 4 then n3.getLsbD (k - 4)
      else if k - 4 - 4 < 4 then n2.getLsbD (k - 4 - 4) else n1.getLsbD (k - 4 - 4 - 4) := by
    intro k
    simp only [BitVec.getLsbD_append]
  show [Sym.SS] ++ ((List.range 16).map fun k => bitSym ((n1 ++ n2 ++ n3 ++ n4).getLsbD (15 - k))) ++ [Sym.SS] = _
  simp only [key]
  rfl

theorem nibble1_eq_append (code : BitVec 2) : nibble1 code = 0b01#2 ++ code := by
  revert code
  decide

/-- The nibbles of a packet go out as the frame of its word (R65, R100). -/
theorem packetEvents_eq_expand (code : BitVec 2) (b a : Value) :
    packetEvents code b a = expand (frameSyms (packetWord code b a)) := by
  have h : packetWord code b a = (0b01#2 ++ code) ++ b ++ a ++ (0xF#4 ^^^ (0b01#2 ++ code) ^^^ b ^^^ a) := rfl
  rw [h, frameSyms_nibbles]
  simp [packetEvents, nibbleEvents_eq_expand, symbolEvents_pauseSS, nibble1_eq_append, checksum, Config.lrcSeed]

theorem maskOutput_eq (b : Byte) : maskOutput b = b.setWidth 4 := by
  revert b
  decide

theorem channelPacket_eq_expand (c : Cache) (i : Fin 4) : channelPacket c i = expand (frameSyms (cachedWord c i)) :=
  packetEvents_eq_expand _ _ _

@[simp] theorem delayEvents_zero : delayEvents 0 = [] := rfl

theorem delayEvents_pos {d : Nat} (h : 0 < d) : delayEvents d = [.D d] := by simp [delayEvents, h]

theorem delayEvents_eq_expand (d : Nat) : delayEvents d = expand (if d = 0 then [] else [.G d]) := by
  by_cases h : d = 0
  · simp [h]
  · rw [delayEvents_pos (by omega)]
    simp [h, expandOne]

@[simp] theorem getLast?_symbolEvents (p : Nat) : (symbolEvents p).getLast? = some .L := by
  cases p with
  | zero => rfl
  | succ p => simp [symbolEvents, List.getLast?_append, Nat.mul_succ, List.getLast?_replicate]

end Sys2Proof.Machine
end

