-- ==== Sys2Proof/Tests/Slice0.lean ====
section
/-!
SUPPORT. Tests against the vectors of spec/95_test_vectors.md, ill-formed terms for each check, and a witness for each statement with hypotheses.
-/
namespace Sys2Proof.Tests
open Sys2Proof Sys2Proof.Machine

/-! ### Helper states -/

/-- A cache from its eight cells, `(A, B)` of channels 1 to 4 (the notation of 95_test_vectors.md). -/
def cacheOf (a1 b1 a2 b2 a3 b3 a4 b4 : Value) : Cache := #v[⟨a1, b1⟩, ⟨a2, b2⟩, ⟨a3, b3⟩, ⟨a4, b4⟩]

/-- An idle encoder with a given cache. -/
def withCache (c : Cache) : State := { State.reset with cache := c }

/-- A busy encoder, one carrier cycle still to drive. -/
def busyState : State := { State.reset with pending := [.H, .L] }

/-- An idle encoder with a command and a tick to come. -/
def waiting : State := { State.reset with requests := [.command [0x01, 0x00, 0x07], .tick] }

/-- The cache and the last result after an operation, where it answers a next state. -/
def outcome (o : Host.Outcome State Fault Refusal) : Option (Cache × Option Result) :=
  match o with
  | .next s => some (s.cache, s.results.getLast?)
  | .fault _ => none
  | .refused _ => none

/-! ### WellFormed: each check refuses a term -/

theorem test_wf_reject_of_matching_command : Instr.wellFormed (.applyReject [0x01, 0x00, 0x07]) = false := by decide
theorem test_wf_reject_of_matching_four_bytes : Instr.wellFormed (.applyReject [0x01, 0x01, 0x07, 0x00]) = false := by decide
theorem test_wf_reject_of_port_two : Instr.wellFormed (.applyReject [0x02, 0x02, 0x05]) = true := by decide
theorem test_wf_send_channel_zero : Instr.wellFormed (.sendChannel 0 1 0) = false := by decide
theorem test_wf_send_channel_five : Instr.wellFormed (.sendChannel 5 1 0) = false := by decide
theorem test_wf_encode_channel_five : Instr.wellFormed (.encodeAndSend 5 0 0) = false := by decide
theorem test_wf_encode_wide_b : Instr.wellFormed (.encodeAndSend 1 16 0) = false := by decide
theorem test_wf_encode_wide_a : Instr.wellFormed (.encodeAndSend 1 0 16) = false := by decide
theorem test_wf_encode_edges : Instr.wellFormed (.encodeAndSend 4 15 15) = true := by decide
theorem test_wf_get_channel_zero : Instr.wellFormed (.get 0 .a) = false := by decide
theorem test_wf_packet_misprinted_checksum : Instr.wellFormed (.pktComboPwm 0 0 7 0x8) = false := by decide
theorem test_wf_packet_right_checksum : Instr.wellFormed (.pktComboPwm 0 0 7 0xC) = true := by decide

/-! ### Decoding, from words written out by R60 to R63 -/

theorem test_decode_applyA3 : decode (.command [0x01, 0x00, 0x07]) = .applyA3 1 7 := by decide
theorem test_decode_applyB3 : decode (.command [0x02, 0x01, 0x05]) = .applyB3 2 5 := by decide
theorem test_decode_applyA4 : decode (.command [0x03, 0x00, 0x08, 0xFF]) = .applyA4 3 8 0xFF := by decide
theorem test_decode_applyB4 : decode (.command [0x03, 0x01, 0x08, 0x00]) = .applyB4 3 8 0 := by decide
theorem test_decode_channel_not_masked : decode (.command [0x05, 0x00, 0x17]) = .applyA3 5 0x17 := by decide
theorem test_decode_port_two_is_not_b : decode (.command [0x02, 0x02, 0x05]) = .applyReject [2, 2, 5] := by decide
theorem test_decode_port_255 : decode (.command [0x01, 0xFF, 0x00, 0x00]) = .applyReject [1, 0xFF, 0, 0] := by decide
theorem test_decode_empty : decode (.command []) = .applyReject [] := by decide
theorem test_decode_five_bytes : decode (.command [3, 1, 8, 0, 0]) = .applyReject [3, 1, 8, 0, 0] := by decide
theorem test_decode_tick : decode .tick = .refreshAll := by decide
theorem test_decode_reset : decode .reset = .reset := by decide
theorem test_decode_send_channel : decode (.call (.sendChannel 2 3 30)) = .sendChannel 2 3 30 := by decide
theorem test_decode_encode_and_send : decode (.call (.encodeAndSend 1 0 7)) = .encodeAndSend 1 0 7 := by decide
theorem test_decode_get : decode (.call (.get 3 .b)) = .get 3 .b := by decide
theorem test_decode_set : decode (.call (.set 2 .a 12)) = .set 2 .a 12 := by decide
theorem test_decode_nibble : decode (.call (.nibble 0x4)) = .nibble 0x4 := by decide
theorem test_decode_bit : decode (.call (.bit true)) = .bit true := by decide
theorem test_decode_symbol : decode (.call (.symbol 1)) = .symbol 1 := by decide
theorem test_decode_mark : decode (.call .mark) = .mark := by decide
theorem test_decode_symbols : decode (.call .symSS) = .symSS ∧ decode (.call .symB0) = .symB0 ∧ decode (.call .symB1) = .symB1 := by
  decide
theorem test_decode_packet : decodePacket 0b0111000111100111#16 = some (.pktComboPwm 3 1 14 7) := by decide
theorem test_decode_table_words : decodeTableWord 24 0x04010F = some (.applyB3 4 15) ∧
    decodeTableWord 32 0x03000855 = some (.applyA4 3 8 0x55) ∧ decodeTableWord 16 0x55A5 = some (.pktComboPwm 1 5 10 5) ∧
    decodeTableWord 0 0 = some .refreshAll := by decide
theorem test_encode_command : encode (.applyB4 3 8 0x2A) = .command [0x03, 0x01, 0x08, 0x2A] := by decide
theorem test_encode_packet : encodePacket 1 0 12 6 = 0x50C6 := by decide

/-! ### The Symbol Generator (95_test_vectors.md section 2.1) -/

theorem test_mark : exec .mark State.reset =
    .next { State.reset with pending := [.H, .L, .H, .L, .H, .L, .H, .L, .H, .L, .H, .L] } := rfl
theorem test_symbol_one : exec (.symbol 1) State.reset =
    .next { State.reset with pending := [.H, .L, .H, .L, .H, .L, .H, .L, .H, .L, .H, .L, .L, .L] } := rfl
theorem test_symbol_appends : exec (.symbol 0) busyState =
    .next { State.reset with pending := [.H, .L, .H, .L, .H, .L, .H, .L, .H, .L, .H, .L, .H, .L] } := rfl
theorem test_nibble_one_last_bit_last : nibbleSyms 0x1 = [.B0, .B0, .B0, .B1] := by decide
theorem test_nibble_eight_first_bit_first : nibbleSyms 0x8 = [.B1, .B0, .B0, .B0] := by decide

/-! ### Packets (95_test_vectors.md sections 1 and 2.2) -/

theorem test_packet_words : packetWord 0 0 0 = 0x400B ∧ packetWord 3 0 0 = 0x7008 ∧ packetWord 0 0 7 = 0x407C ∧
    packetWord 0 7 0 = 0x470C ∧ packetWord 1 0 12 = 0x50C6 ∧ packetWord 0 15 15 = 0x4FFB ∧ packetWord 3 1 14 = 0x71E7 ∧
    packetWord 1 5 10 = 0x55A5 ∧ packetWord 2 11 4 = 0x6B46 ∧ packetWord 2 8 0 = 0x6801 := by decide
theorem test_checksum_nibbles : checksum (nibble1 0) 0 7 = 0xC ∧ checksum (nibble1 1) 0 12 = 6 ∧ nibble1 3 = 7 := by decide
theorem test_frame_scenario_1 : frameSyms 0x407C =
    [.SS, .B0, .B1, .B0, .B0, .B0, .B0, .B0, .B0, .B0, .B1, .B1, .B1, .B1, .B1, .B0, .B0, .SS] := by decide
theorem test_ones : ones 0x407C = 6 ∧ ones 0x400B = 4 ∧ ones 0x4FFB = 12 := by decide
theorem test_encode_and_send_channel_five : exec (.encodeAndSend 5 0 0) State.reset = .refused .channelPrecondition := rfl
theorem test_packet_row_misprint_refused : exec (.pktComboPwm 0 0 7 8) State.reset = .refused .packetChecksum := rfl

/-! ### The cache (95_test_vectors.md section 2.4) -/

/-- The cache `[(7,9),(0,0),(0,0),(0,15)]`. -/
def sample : Cache := cacheOf 7 9 0 0 0 0 0 15

theorem test_get_after_reset : outcome (exec (.get 4 .b) State.reset) = some (cacheOf 0 0 0 0 0 0 0 0, some (.value 0)) := by decide
theorem test_get_cell : outcome (exec (.get 1 .b) (withCache sample)) = some (sample, some (.value 9)) := by decide
theorem test_get_channel_five : outcome (exec (.get 5 .a) (withCache sample)) = some (sample, some (.fail .invalidChannel)) := by decide
theorem test_set_one_cell : outcome (exec (.set 1 .a 0) (withCache (cacheOf 7 9 0 0 0 0 0 0))) =
    some (cacheOf 0 9 0 0 0 0 0 0, some .ok) := by decide
theorem test_set_last_cell : outcome (exec (.set 4 .b 15) (withCache (cacheOf 7 9 0 0 0 0 0 0))) = some (sample, some .ok) := by decide
theorem test_set_value_not_masked : outcome (exec (.set 3 .a 23) (withCache sample)) = some (sample, some (.fail .invalidValue)) := by
  decide
theorem test_set_both_bad : outcome (exec (.set 9 .a 99) (withCache sample)) = some (sample, some (.fail .invalidChannel)) := by decide

/-! ### APPLY, SEND_CHANNEL, REFRESH_ALL, RESET (95_test_vectors.md sections 2.5, 2.6 and 3) -/

theorem test_applyA3_scenario_1 : outcome (exec (.applyA3 1 7) State.reset) = some (cacheOf 7 0 0 0 0 0 0 0, some .ok) := by decide
theorem test_applyA3_scenario_3 : outcome (exec (.applyA3 5 3) State.reset) =
    some (cacheOf 0 0 0 0 0 0 0 0, some (.fail .invalidChannel)) := by decide
theorem test_applyB3_keeps_a : outcome (exec (.applyB3 2 5) (withCache (cacheOf 0 0 12 0 0 0 0 0))) =
    some (cacheOf 0 0 12 5 0 0 0 0, some .ok) := by decide
theorem test_applyB3_value_16 : outcome (exec (.applyB3 3 16) State.reset) =
    some (cacheOf 0 0 0 0 0 0 0 0, some (.fail .invalidValue)) := by decide
theorem test_applyB4_combo_mode_is_three_bytes (s : State) :
    exec (.applyB4 3 8 Config.modeComboPwm) s = exec (.applyB3 3 8) s := by
  show acceptWhenIdle _ _ _ = acceptWhenIdle _ _ _
  simp [applyCommand, commandOperands]
theorem test_applyA4_other_mode (m : Byte) (h : m ≠ Config.modeComboPwm) :
    exec (.applyA4 9 99 m) State.reset = .next { State.reset with results := [.fail .invalidMode] } := by
  rw [show exec (.applyA4 9 99 m) State.reset =
    acceptWhenIdle .busy State.reset (applyCommand [9, portByte .a, 99, m] State.reset) from rfl, acceptWhenIdle_idle rfl]
  simp [applyCommand, commandOperands, h, rejection, report]
theorem test_reject_lengths : outcome (exec (.applyReject [3, 1]) State.reset) =
    some (cacheOf 0 0 0 0 0 0 0 0, some (.fail .invalidLength)) := by decide
theorem test_reject_all_three_bad_is_port : outcome (exec (.applyReject [9, 9, 0x63]) State.reset) =
    some (cacheOf 0 0 0 0 0 0 0 0, some (.fail .invalidPort)) := by decide
theorem test_send_words : cachedWord (cacheOf 0 0 12 0 0 0 0 0) 1 = 0x50C6 ∧ cachedWord sample 0 = 0x4975 ∧ cachedWord sample 3 = 0x7F07 := by
  decide
theorem test_send_channel_no_repeats : exec (.sendChannel 2 0 30) State.reset = .next { State.reset with results := [.ok] } := rfl
theorem test_send_channel_two_no_gap (c : Cache) : sendEvents c 1 2 0 = channelPacket c 1 ++ channelPacket c 1 := by
  simp [sendEvents, delayEvents]
theorem test_refresh_keeps_cache : outcome (exec .refreshAll (withCache sample)) = some (sample, some .ok) := by decide
theorem test_refresh_program_1 : cachedWord (cacheOf 7 0 0 0 0 0 0 0) 0 = 0x407C ∧ cachedWord (cacheOf 7 0 0 0 0 0 0 0) 1 = 0x500A ∧
    cachedWord (cacheOf 7 0 0 0 0 0 0 0) 2 = 0x6009 ∧ cachedWord (cacheOf 7 0 0 0 0 0 0 0) 3 = 0x7008 := by decide
theorem test_reset_loses_cache : exec .reset (withCache sample) = .next State.reset := rfl
theorem test_reset_busy : exec .reset busyState = .refused .resetWhileBusy := rfl
theorem test_apply_busy : exec (.applyA3 1 7) busyState = .refused .busy := rfl
theorem test_step_busy : step busyState = .next { State.reset with pin := .high, pending := [.L], emitted := [.H] } := rfl
theorem test_step_accepts_in_order : step { State.reset with requests := [.call .mark, .tick] } =
    exec .mark { State.reset with requests := [.tick] } := rfl
theorem test_placed_word_runs_first : step (State.reset.withFetchWord 24 0x050003) =
    .next { State.reset with results := [.fail .invalidChannel] } := rfl
theorem test_reason_codes : [Reason.invalidChannel, .invalidValue, .invalidPort, .invalidMode, .invalidLength].map Reason.code =
    [1, 2, 3, 4, 5] := by decide
theorem test_result_success : Result.success .ok = true ∧ Result.success (.value 3) = true ∧
    Result.success (.fail .invalidPort) = false := by decide

/-! ### Witnesses: each statement's hypotheses are met together, each clause at a boundary -/

theorem reset_inv : State.reset.Inv := ⟨⟨fun _ => rfl, by simp⟩, by simp, by simp⟩

theorem busyState_inv : busyState.Inv :=
  ⟨⟨by simp [busyState], by simp [busyState, Event.level]⟩, by simp [busyState], by simp [busyState]⟩

theorem waiting_inv : waiting.Inv := ⟨⟨fun _ => rfl, by simp [waiting]⟩, by simp [waiting], by simp [waiting]⟩

theorem waiting_external : waiting.ExternalOnly := by simp [State.ExternalOnly, waiting, Request.external]

theorem waiting_legal : waiting.WaveformLegal := ⟨[], rfl⟩

theorem waiting_echo : waiting.EchoMatchesCache := by simp [State.EchoMatchesCache, waiting]

theorem waiting_step : ∃ t, step waiting = .next t := ⟨_, rfl⟩

theorem test_witness_IdleStepRunsTheDecodedRequest :
    waiting.pending = [] ∧ waiting.requests = .command [0x01, 0x00, 0x07] :: [.tick] := ⟨rfl, rfl⟩
theorem test_witness_PlacedTableWordRunsNext : decodeTableWord 24 0x010007 = some (.applyA3 1 7) := by decide
theorem test_witness_IdleStepWithoutRequestChangesNothing : State.reset.pending = [] ∧ State.reset.requests = [] := ⟨rfl, rfl⟩
theorem test_witness_BusyStepDrivesOneEvent : busyState.pending = .H :: [.L] := rfl
theorem test_witness_BusyEncoderRunsItsTraceToTheEnd : busyState.Inv ∧ busyState.pending.length = 2 := ⟨busyState_inv, rfl⟩
theorem test_witness_EnvironmentRequestsNeverStopTheMachine : waiting.ExternalOnly := waiting_external
theorem test_witness_RequestSequenceIsServedInOrder : waiting.Idle ∧ waiting.ExternalOnly := ⟨rfl, waiting_external⟩
theorem test_witness_EachRequestGetsOneResult : State.reset.Idle ∧ ∀ r ∈ [Request.tick, .reset], r.external = true :=
  ⟨rfl, by decide⟩
theorem test_witness_BusyEncoderAcceptsNothing : Instr.external .reset = true ∧ Instr.external (.applyReject []) = true ∧
    busyState.pending ≠ [] := by decide
theorem test_witness_DecodeOfEncodeIsTheOperation : Instr.wellFormed (.applyReject [2, 2, 5]) = true := by decide
theorem test_witness_EncodeOfDecodeIsTheRequest : Request.external (.command [2, 2, 5, 0]) = true := by decide
theorem test_witness_PacketLayoutRoundTrips : decodePacket 0x407C = some (.pktComboPwm 0 0 7 0xC) ∧ decodePacket 0x8000 = none := by
  decide
theorem test_witness_EncodeAndSendRefusesOtherChannels : ((0 : Nat) = 0 ∨ 5 ≤ 0) ∧ ((5 : Nat) = 0 ∨ 5 ≤ 5) := by decide
theorem test_witness_PacketRowIsWhatEncodeAndSendSends : (0xC : Value) = 0xF ^^^ (0b01#2 ++ (0 : BitVec 2)) ^^^ 0 ^^^ 7 ∧
    (0x8 : Value) ≠ 0xF ^^^ (0b01#2 ++ (0 : BitVec 2)) ^^^ 0 ^^^ 7 := by decide
theorem test_witness_GetReturnsTheCell : 1 = (0 : Fin 4).val + 1 ∧ 4 = (3 : Fin 4).val + 1 ∧ ((5 : Nat) = 0 ∨ 5 ≤ 5) := by decide
theorem test_witness_WriteOfACellIsAllOrNothing : State.reset.Idle ∧ (4 : Byte).toNat = (3 : Fin 4).val + 1 ∧ (15 : Byte).toNat ≤ 15 ∧
    ((0 : Byte).toNat = 0 ∨ 5 ≤ (0 : Byte).toNat ∨ 16 ≤ (1 : Byte).toNat) ∧
    ((1 : Byte).toNat = 0 ∨ 5 ≤ (1 : Byte).toNat ∨ 16 ≤ (16 : Byte).toNat) := ⟨rfl, by decide⟩
theorem test_witness_CellsChangeOnlyBySetOrReset : ∃ t, Instr.wellFormed (.set 1 .a 7) = true ∧
    exec (.set 1 .a 7) State.reset = .next t ∧ readCell t.cache 0 .a ≠ readCell State.reset.cache 0 .a :=
  ⟨_, rfl, rfl, by decide⟩
theorem test_witness_CellsChangeByReset : ∃ t, exec .reset (withCache sample) = .next t ∧
    readCell t.cache 0 .a ≠ readCell (withCache sample).cache 0 .a := ⟨_, rfl, by decide⟩
theorem test_witness_ChannelOutsideOneToFourIsRejected : State.reset.Idle ∧ ((0 : Byte).toNat = 0 ∨ 5 ≤ (0 : Byte).toNat) ∧
    ((5 : Byte).toNat = 0 ∨ 5 ≤ (5 : Byte).toNat) ∧ ((255 : Byte).toNat = 0 ∨ 5 ≤ (255 : Byte).toNat) := ⟨rfl, by decide⟩
theorem test_witness_ValueAboveFifteenIsRejected : State.reset.Idle ∧ 16 ≤ (16 : Byte).toNat ∧ 16 ≤ (255 : Byte).toNat ∧
    1 ≤ (4 : Byte).toNat ∧ (4 : Byte).toNat ≤ 4 := ⟨rfl, by decide⟩
theorem test_witness_FirstFailingCheckDecidesTheResult : State.reset.Idle ∧ verdict [] = some .invalidLength ∧
    verdict [9, 9, 0x63] = some .invalidPort ∧ verdict [9, 0, 0x63] = some .invalidChannel ∧ verdict [4, 0, 16] = some .invalidValue ∧
    verdict [4, 1, 15] = none := ⟨rfl, by decide⟩
theorem test_witness_invalid_mode_verdict (m : Byte) (h : m ≠ Config.modeComboPwm) : verdict [9, 9, 0x63, m] = some .invalidMode := by
  simp [verdict, h]
theorem test_witness_RejectRowRejects : State.reset.Idle ∧ unmatchedCommand [] = true ∧ unmatchedCommand [1, 2, 7] = true ∧
    unmatchedCommand [1, 255, 7, 0] = true := ⟨rfl, by decide⟩
theorem test_witness_RejectionLeavesNoMark : ∃ t, exec (decode (.command [5, 0, 3])) State.reset = .next t ∧
    t.results = State.reset.results ++ [.fail .invalidChannel] := ⟨_, rfl, rfl⟩
theorem test_witness_AcceptedCommandWritesThenSendsThreePackets : State.reset.Idle ∧ (1 : Byte).toNat = (0 : Fin 4).val + 1 ∧
    (4 : Byte).toNat = (3 : Fin 4).val + 1 ∧ (0 : Byte).toNat ≤ 15 ∧ (15 : Byte).toNat ≤ 15 := ⟨rfl, by decide⟩
theorem test_witness_OtherModesAreRejected : State.reset.Idle ∧ ∃ m : Byte, m ≠ Config.modeComboPwm :=
  ⟨rfl, if h : Config.modeComboPwm = 0 then ⟨1, by rw [h]; decide⟩ else ⟨0, fun e => h e.symm⟩⟩
theorem test_witness_ApplyPassesTheSourceTests : State.reset.Idle ∧ (4 : Byte).toNat = (3 : Fin 4).val + 1 ∧ (15 : Byte).toNat ≤ 15 ∧
    16 ≤ (16 : Byte).toNat := ⟨rfl, by decide⟩
theorem test_witness_SendChannelSendsRepeatedPackets : 4 = (3 : Fin 4).val + 1 ∧ ((0 : Nat) = 0 ∨ 5 ≤ 0) ∧ ((5 : Nat) = 0 ∨ 5 ≤ 5) := by
  decide
theorem test_witness_SendChannelIsIdempotent : ∃ t u, exec (.sendChannel 2 1 0) State.reset = .next t ∧
    exec (.sendChannel 2 1 0) t = .next u := ⟨_, _, rfl, rfl⟩
theorem test_witness_RefreshSendsEveryChannelOnce : State.reset.Idle := rfl
theorem test_witness_ResetOfAnIdleEncoderConstructsIt : (withCache sample).Idle := rfl
theorem test_witness_OperationsAreTheirExpansions_refresh : ∃ u,
    andThen (exec (.sendChannel 1 1 0) State.reset) (fun t1 =>
      andThen (exec (.sendChannel 2 1 0) (emitAll (delayEvents Config.refreshGapMs) t1)) (fun t2 =>
        andThen (exec (.sendChannel 3 1 0) (emitAll (delayEvents Config.refreshGapMs) t2)) (fun t3 =>
          exec (.sendChannel 4 1 0) (emitAll (delayEvents Config.refreshGapMs) t3)))) = .next u := ⟨_, rfl⟩
theorem test_witness_OperationsAreTheirExpansions_apply : ∃ t u, State.reset.Idle ∧ exec (.set 4 .b 15) State.reset = .next t ∧
    t.results = State.reset.results ++ [.ok] ∧
    exec (.sendChannel (4 : Byte).toNat Config.applyRepeats Config.applyDelayMs) t = .next u := ⟨_, _, rfl, rfl, rfl, rfl⟩
theorem test_witness_SendersOnlyAppendTheirTrace : Instr.onlySends (.encodeAndSend 4 15 15) = true ∧
    Instr.wellFormed (.encodeAndSend 4 15 15) = true := by decide
theorem test_witness_OperationsKeepWhatTheyDoNotWrite : ∃ t, Instr.wellFormed .mark = true ∧ exec .mark State.reset = .next t ∧
    Instr.mayWrite .mark = false ∧ Instr.mark ≠ .reset := ⟨_, rfl, rfl, rfl, by decide⟩
theorem test_witness_StepChangesAtMostOneCell : ∃ t, step waiting = .next t ∧ waiting.pending = [] ∧
    waiting.requests = .command [0x01, 0x00, 0x07] :: [.tick] ∧ decode (.command [0x01, 0x00, 0x07]) ≠ .reset ∧
    (decode (.command [0x01, 0x00, 0x07])).target = some (0, .a, 7) := ⟨_, rfl, rfl, rfl, by decide, by decide⟩
theorem test_witness_StepChangesAtMostOneCell_edges : (decode (.command [0x04, 0x01, 0x0F])).target = some (3, .b, 15) ∧
    (decode (.command [0x04, 0x01, 0x10])).target = none ∧ (decode (.command [0x05, 0x00, 0x03])).target = none ∧
    (decode (.call (.set 1 .b 0))).target = some (0, .b, 0) := by decide
theorem test_witness_StepChangesAtMostOneCell_drives : ∃ t, step busyState = .next t ∧ busyState.pending ≠ [] := ⟨_, rfl, by decide⟩
theorem test_witness_StepChangesAtMostOneCell_idles : ∃ t, step State.reset = .next t ∧ State.reset.requests = [] := ⟨_, rfl, rfl⟩
theorem test_witness_StepChangesAtMostOneCell_tick : ∃ t, step { State.reset with requests := [.tick] } = .next t := ⟨_, rfl⟩
theorem test_witness_StepChangesAtMostOneCell_rejects : ∃ t,
    step { State.reset with requests := [.command [0x05, 0x00, 0x03]] } = .next t ∧
    t.results = State.reset.results ++ [.fail .invalidChannel] := ⟨_, rfl, rfl⟩
theorem test_witness_StepKeepsTheInvariant : ∃ t, waiting.Inv ∧ step waiting = .next t := ⟨_, waiting_inv, rfl⟩
theorem test_witness_StepKeepsTheWaveformLegal : ∃ t, waiting.ExternalOnly ∧ waiting.WaveformLegal ∧ step waiting = .next t :=
  ⟨_, waiting_external, waiting_legal, rfl⟩
theorem test_witness_StepKeepsEchoAndCacheInAgreement : ∃ t, waiting.Inv ∧ waiting.ExternalOnly ∧ waiting.EchoMatchesCache ∧
    step waiting = .next t := ⟨_, waiting_inv, waiting_external, waiting_echo, rfl⟩
theorem test_witness_AcceptedTraceIsBounded : ∃ t, Instr.external (.applyA3 1 7) = true ∧ State.reset.Idle ∧
    exec (.applyA3 1 7) State.reset = .next t ∧ Instr.applyA3 1 7 ≠ .refreshAll := ⟨_, rfl, rfl, rfl, by decide⟩
theorem test_witness_AcceptedTraceIsBounded_refresh : ∃ t, Instr.external .refreshAll = true ∧ State.reset.Idle ∧
    exec .refreshAll State.reset = .next t := ⟨_, rfl, rfl, rfl⟩
theorem test_witness_EitherOrderEndsInTheSameCache : State.reset.Idle ∧ verdict [0, 0, 1] ≠ none := ⟨rfl, by decide⟩

end Sys2Proof.Tests
end

/-!
PROOFS. The traces of SEND_CHANNEL, REFRESH_ALL and an accepted APPLY as symbol traces, and the state after reset as data that is sent (R31).
-/
namespace Sys2Proof.Machine

/-! ### Symbol traces without their gaps -/

@[simp] theorem withoutGaps_append (l m : List Sym) : withoutGaps (l ++ m) = withoutGaps l ++ withoutGaps m :=
  List.filter_append ..

@[simp] theorem withoutGaps_gap (ms : Nat) : withoutGaps [.G ms] = [] := rfl

@[simp] theorem isSymbol_bitSym (v : Bool) : (bitSym v).isSymbol = true := by cases v <;> rfl

/-- A frame holds symbols only (R65). -/
@[simp] theorem withoutGaps_frameSyms (w : PacketWord) : withoutGaps (frameSyms w) = frameSyms w := by
  refine List.filter_eq_self.2 fun x hx => ?_
  simp only [frameSyms, List.mem_append, List.mem_singleton, List.mem_map] at hx
  obtain (rfl | ⟨k, -, rfl⟩) | rfl := hx
  · rfl
  · exact isSymbol_bitSym _
  · rfl

/-! ### The traces of SEND_CHANNEL and REFRESH_ALL -/

/-- SEND_CHANNEL sends the cached word's frame, then a gap and the frame for each further repeat (R124). -/
theorem sendEvents_succ_eq_expand (c : Cache) (i : Fin 4) (n d : Nat) :
    sendEvents c i (n + 1) d = expand (frameSyms (cachedWord c i) ++
      (List.replicate n ((if d = 0 then [] else [.G d]) ++ frameSyms (cachedWord c i))).flatten) := by
  induction n with
  | zero => simp [sendEvents, channelPacket_eq_expand]
  | succ n ih =>
    rw [sendEvents, ih, channelPacket_eq_expand, delayEvents_eq_expand, List.replicate_succ, List.flatten_cons]
    simp only [expand_append, List.append_assoc]

/-- APPLY sends the cached word's frame three times, 30 ms apart (R120). -/
theorem sendEvents_apply_eq_expand (c : Cache) (i : Fin 4) :
    sendEvents c i Config.applyRepeats Config.applyDelayMs = expand (frameSyms (cachedWord c i) ++ [.G 30] ++
      frameSyms (cachedWord c i) ++ [.G 30] ++ frameSyms (cachedWord c i)) := by
  refine (sendEvents_succ_eq_expand c i 2 30).trans ?_
  simp

/-- REFRESH_ALL sends the four cached words in channel order, 5 ms apart (R126). -/
theorem refreshEvents_eq_expand (c : Cache) : refreshEvents c [0, 1, 2, 3] =
    expand (frameSyms (cachedWord c 0) ++ [.G 5] ++ frameSyms (cachedWord c 1) ++ [.G 5] ++
      frameSyms (cachedWord c 2) ++ [.G 5] ++ frameSyms (cachedWord c 3)) := by
  have send : ∀ i, sendEvents c i Config.sendRepeats Config.sendDelayMs = expand (frameSyms (cachedWord c i)) := fun i =>
    channelPacket_eq_expand c i
  have gap : delayEvents Config.refreshGapMs = expand [.G 5] := delayEvents_eq_expand _
  simp only [refreshEvents, send, gap, expand_append, List.append_assoc]

/-- An idle encoder accepts REFRESH_ALL (R126, R147). -/
theorem exec_refreshAll_idle {s : State} (h : s.pending = []) :
    exec .refreshAll s = .next (report .ok (emitAll (refreshEvents s.cache [0, 1, 2, 3]) s)) :=
  acceptWhenIdle_idle h ..

/-! ### An accepted three-byte command -/

@[simp] theorem applied_cache (i : Fin 4) (c : Byte) (p : Port) (v : Byte) (s : State) :
    (applied i c p v s).cache = writeCell s.cache i p (v.setWidth 4) := rfl

@[simp] theorem applied_pending (i : Fin 4) (c : Byte) (p : Port) (v : Byte) (s : State) :
    (applied i c p v s).pending = s.pending ++
      sendEvents (writeCell s.cache i p (v.setWidth 4)) i Config.applyRepeats Config.applyDelayMs := rfl

/-- An idle encoder applies a three-byte command to port A of a legal channel and value (R60, R120). -/
theorem exec_applyA3_applied {s : State} {i : Fin 4} {c v : Byte} (hs : s.pending = [])
    (hi : channelIndex c.toNat = some i) (hv : v.toNat ≤ 15) : exec (.applyA3 c v) s = .next (applied i c .a v s) := by
  have hc : commandOperands [c, portByte .a, v] = .ok (c, .a, v) := rfl
  rw [← applyCommand_applied s hc hi hv]
  exact acceptWhenIdle_idle hs ..

/-! ### The zeros after reset -/

/-- Right after reset the word of every channel has both outputs 0 (R31). -/
theorem cachedWord_reset (i : Fin 4) : cachedWord State.reset.cache i = packetWord (channelCode i) 0 0 := by
  simp [cachedWord]

/-- After one command to port A of channel 1 its word carries the untouched zero of port B as N2 (R31, R63). -/
theorem cachedWord_reset_writeA (v : Value) :
    cachedWord (writeCell State.reset.cache 0 .a v) 0 = packetWord 0 0 v := by
  have hb : readCell (writeCell State.reset.cache 0 .a v) 0 .b = 0 := by
    rw [readCell_writeCell_other _ _ (by decide), readCell_reset]
  rw [cachedWord, readCell_writeCell_same, hb]
  rfl

/-- Settles O43: the cells read 0 after reset, and the traces of REFRESH_ALL and APPLY carry what the cells hold. -/
theorem zeroAfterResetIsARealValue : Obligations.ZeroAfterResetIsARealValue := by
  have happly : exec (.applyA3 1 7) State.reset = .next (applied 0 1 .a 7 State.reset) :=
    exec_applyA3_applied rfl (channelIndex_eq_some.2 rfl) (by decide)
  refine ⟨⟨_, _, exec_refreshAll_idle rfl, refreshEvents_eq_expand _, ?_⟩,
    ⟨_, _, happly, ?_, ?_, (applied_pending ..).trans (sendEvents_apply_eq_expand ..), ?_⟩⟩
  · simp only [withoutGaps_append, withoutGaps_gap, withoutGaps_frameSyms, cachedWord_reset, List.append_nil]
    rfl
  · exact readCell_writeCell_same ..
  · rw [applied_cache, readCell_writeCell_other _ _ (by decide), readCell_reset]
  · have hw : packetWord 0 0 ((7 : Byte).setWidth 4) = 0x407C := by decide
    simp only [withoutGaps_append, withoutGaps_gap, withoutGaps_frameSyms, cachedWord_reset_writeA, hw, List.append_nil]

end Sys2Proof.Machine

/-!
PROOFS. What ENCODE_AND_SEND appends for a channel 1 to 4 (R65, R100), and what SET, GET and APPLY do to the cells of the cache (R45).
-/
namespace Sys2Proof.Machine

/-! ### The frame of ENCODE_AND_SEND -/

@[simp] theorem length_frameSyms (w : PacketWord) : (frameSyms w).length = 18 := rfl

/-- A packet word is its four nibbles, N1 first (R63). -/
theorem packetWord_eq_nibbles (code : BitVec 2) (b a : Value) :
    packetWord code b a = (0b01#2 ++ code) ++ b ++ a ++ (0xF#4 ^^^ (0b01#2 ++ code) ^^^ b ^^^ a) := rfl

/-- The low nibble of a packet word is the checksum (R63, R103). -/
theorem packetWord_check (code : BitVec 2) (b a : Value) :
    (packetWord code b a).extractLsb' 0 4 = 0xF#4 ^^^ (0b01#2 ++ code) ^^^ b ^^^ a :=
  BitVec.extractLsb'_append_eq_right

/-- The frame of a packet word is N1, output B, output A and the checksum between start and stop symbol (R41). -/
theorem frameSyms_packetWord (code : BitVec 2) (b a : Value) :
    frameSyms (packetWord code b a) = [.SS] ++ nibbleSyms (0b01#2 ++ code) ++ nibbleSyms b ++ nibbleSyms a ++
      nibbleSyms ((packetWord code b a).extractLsb' 0 4) ++ [.SS] := by
  rw [packetWord_check, packetWord_eq_nibbles, frameSyms_nibbles]

/-- For channels 1 to 4 ENCODE_AND_SEND appends the frame of its packet word and does nothing else (R65, R100). -/
theorem exec_encodeAndSend_frame (i : Fin 4) (b a : Byte) (s : State) :
    exec (.encodeAndSend (i.val + 1) b a) s =
      .next (emitAll (expand (frameSyms (packetWord (channelCode i) (b.setWidth 4) (a.setWidth 4)))) s) := by
  simp only [exec, execEncodeAndSend, channelIndex_succ, packetEvents_eq_expand, maskOutput_eq]

/-- Settles O23: the four nibbles that ENCODE_AND_SEND emits are the data bits of the packet word's frame. -/
theorem encodeAndSendSendsOneFrame : Obligations.EncodeAndSendSendsOneFrame := fun i b a s =>
  ⟨exec_encodeAndSend_frame i b a s, length_frameSyms _, frameSyms_packetWord ..⟩

/-! ### SET, GET and a three-byte APPLY on a legal channel -/

/-- SET of a legal channel and value writes the cell and reports `ok` (R112). -/
theorem exec_set_legal {c v : Byte} {i : Fin 4} (p : Port) (s : State) (hi : channelIndex c.toNat = some i)
    (hv : v.toNat ≤ 15) : exec (.set c p v) s =
      .next (report .ok { s with cache := writeCell s.cache i p (v.setWidth 4) }) := by
  obtain ⟨j, hj, -, hs⟩ | ⟨hn, -⟩ | ⟨-, hlt, -⟩ := setCell_cases c p v s
  · obtain rfl : i = j := Option.some.inj (hi.symm.trans hj)
    simp only [exec, execSet, hs]
  · simp [hi] at hn
  · omega

/-- SET of an illegal channel or value is a rejection (R112, R150). -/
theorem exec_set_illegal {c v : Byte} (p : Port) (s : State) (h : c.toNat = 0 ∨ 5 ≤ c.toNat ∨ 16 ≤ v.toNat) :
    ∃ r, exec (.set c p v) s = .next (rejection r s) := by
  obtain ⟨i, hi, hv, -⟩ | hr := exec_set_cases c p v s
  · have hc := channelIndex_eq_some.1 hi
    omega
  · exact hr

/-- GET of a legal channel returns the cell (R111). -/
theorem exec_get_legal {c : Nat} {i : Fin 4} (p : Port) (s : State) (hi : channelIndex c = some i) :
    exec (.get c p) s = .next (report (.value (readCell s.cache i p)) s) := by
  simp only [exec, execGet, getResult, hi]

/-- An idle encoder applies a three-byte command with a legal channel and value (R60, R120). -/
theorem exec_command3_applied {s : State} {c v : Byte} {i : Fin 4} (p : Port) (hs : s.Idle)
    (hi : channelIndex c.toNat = some i) (hv : v.toNat ≤ 15) :
    exec (decode (.command [c, portByte p, v])) s = .next (applied i c p v s) := by
  have hc : commandOperands [c, portByte p, v] = .ok (c, p, v) := by simp [commandOperands, commandWithPort]
  rw [exec_command, applyCommand_applied s hc hi hv]
  exact acceptWhenIdle_idle hs ..

/-- Settles O30: SET and APPLY of a legal channel and value are one `writeCell`, which keeps the other seven cells,
and a SET that fails is a rejection, which keeps them all. -/
theorem writeOfACellIsAllOrNothing : Obligations.WriteOfACellIsAllOrNothing := by
  refine ⟨fun i c v p s hc hv => ?set, fun c v p s h => exec_set_illegal p s h, fun i c v p s hs hc hv => ?apply⟩
  case set =>
    exact ⟨_, exec_set_legal p s (channelIndex_eq_some.2 hc) hv, rfl, readCell_writeCell_same ..,
      fun j q hjq => readCell_writeCell_other _ _ hjq⟩
  case apply =>
    have hi := channelIndex_eq_some.2 hc
    refine ⟨_, exec_command3_applied p hs hi hv, ?_, fun q hq => readCell_writeCell_other _ _ (by simp [hq])⟩
    rw [exec_get_legal p _ hi, applied_cache, readCell_writeCell_same]
    rfl

end Sys2Proof.Machine

/-!
PROOFS. The checksum nibble that ENCODE_AND_SEND sends, bit by bit (R103).
-/
namespace Sys2Proof.Machine

/-- The checksum of a packet word's fields, its seed and first nibble written out (R63, R103). -/
theorem checksum_append (code : BitVec 2) (b a : Value) :
    checksum (0b01#2 ++ code) b a = 0xF#4 ^^^ (0b01#2 ++ code) ^^^ b ^^^ a := rfl

/-- The seed is 1 in each of the four bits, so bit `k` of the checksum is `1 ^ N1[k] ^ N2[k] ^ N3[k]` (R103). -/
theorem getLsbD_checksum (n1 n2 n3 : Value) {k : Nat} (hk : k < 4) :
    (checksum n1 n2 n3).getLsbD k = (true ^^ n1.getLsbD k ^^ n2.getLsbD k ^^ n3.getLsbD k) := by
  have hseed : Config.lrcSeed.getLsbD k = true := by
    rw [show Config.lrcSeed = BitVec.allOnes 4 from rfl, BitVec.getLsbD_allOnes]
    exact decide_eq_true hk
  simp only [checksum, BitVec.getLsbD_xor, hseed]

/-- The low two bits of N1 are the channel code (R100). -/
theorem getLsbD_nibble1_code (code : BitVec 2) {k : Nat} (hk : k < 2) :
    (0b01#2 ++ code).getLsbD k = code.getLsbD k := by
  rw [BitVec.getLsbD_append, if_pos hk]

/-- Bit 2 of N1 is the mode bit, which is 1 (R100). -/
theorem getLsbD_nibble1_mode (code : BitVec 2) : (0b01#2 ++ code).getLsbD 2 = true := by
  rw [BitVec.getLsbD_append]
  rfl

/-- Bit 3 of N1 is the address bit, which is 0 (R100). -/
theorem getLsbD_nibble1_address (code : BitVec 2) : (0b01#2 ++ code).getLsbD 3 = false := by
  rw [BitVec.getLsbD_append]
  rfl

/-- A masked output keeps its low four bits (R67). -/
theorem getLsbD_output (out : Byte) {k : Nat} (hk : k < 4) : (out.setWidth 4).getLsbD k = out.getLsbD k := by
  simp only [BitVec.getLsbD_setWidth, hk, decide_true, Bool.true_and]

/-- Settles O25: the last nibble of the frame is `checksum`, whose bits are those of its operands with the seed's 1;
in bit 2 the mode bit cancels that 1, and in bit 3 the address bit adds nothing. -/
theorem checksumIsTheXorChain : Obligations.ChecksumIsTheXorChain := by
  intro i b a s
  have hbit {k : Nat} (hk : k < 4) : (checksum (0b01#2 ++ channelCode i) (b.setWidth 4) (a.setWidth 4)).getLsbD k =
      (true ^^ (0b01#2 ++ channelCode i).getLsbD k ^^ b.getLsbD k ^^ a.getLsbD k) := by
    rw [getLsbD_checksum _ _ _ hk, getLsbD_output b hk, getLsbD_output a hk]
  refine ⟨_, _, _, checksum (0b01#2 ++ channelCode i) (b.setWidth 4) (a.setWidth 4), ?sent, rfl, rfl, rfl,
    checksum_append .., fun k hk => getLsbD_checksum _ _ _ hk, ?bit3, ?bit2, ?bit1, ?bit0⟩
  case sent =>
    rw [exec_encodeAndSend_frame, frameSyms_packetWord, packetWord_check, ← checksum_append]
    rfl
  case bit3 => rw [hbit (by decide), getLsbD_nibble1_address, Bool.xor_false]
  case bit2 => rw [hbit (by decide), getLsbD_nibble1_mode, Bool.xor_self, Bool.false_xor]
  case bit1 => rw [hbit (by decide), getLsbD_nibble1_code _ (by decide)]
  case bit0 => rw [hbit (by decide), getLsbD_nibble1_code _ (by decide)]

end Sys2Proof.Machine

/-!
PROOFS. The properties of every packet word (R104), the rejection of an illegal three-byte command, and the source's four tests of APPLY (R123).
-/
namespace Sys2Proof.Machine

/-! ### The fields of a packet word -/

/-- Bits 15 to 12 of a packet word are N1 (R63). -/
@[simp] theorem packetWord_nibble1 (code : BitVec 2) (b a : Value) :
    (packetWord code b a).extractLsb' 12 4 = 0b01#2 ++ code :=
  (BitVec.extractLsb'_append_eq_of_le (by decide)).trans <|
    (BitVec.extractLsb'_append_eq_of_le (by decide)).trans BitVec.extractLsb'_append_eq_left

/-- Bits 13 and 12 of a packet word are the channel code (R63). -/
@[simp] theorem packetWord_code (code : BitVec 2) (b a : Value) : (packetWord code b a).extractLsb' 12 2 = code :=
  (BitVec.extractLsb'_append_eq_of_le (by decide)).trans <|
    (BitVec.extractLsb'_append_eq_of_le (by decide)).trans <|
      (BitVec.extractLsb'_append_eq_of_le (by decide)).trans BitVec.extractLsb'_append_eq_right

/-- Bits 11 to 8 of a packet word are output B (R63). -/
@[simp] theorem packetWord_outB (code : BitVec 2) (b a : Value) : (packetWord code b a).extractLsb' 8 4 = b :=
  (BitVec.extractLsb'_append_eq_of_le (by decide)).trans <|
    (BitVec.extractLsb'_append_eq_of_le (by decide)).trans BitVec.extractLsb'_append_eq_right

/-- Bits 7 to 4 of a packet word are output A (R63). -/
@[simp] theorem packetWord_outA (code : BitVec 2) (b a : Value) : (packetWord code b a).extractLsb' 4 4 = a :=
  (BitVec.extractLsb'_append_eq_of_le (by decide)).trans BitVec.extractLsb'_append_eq_right

/-! ### The four nibbles and the number of ones -/

/-- The four nibbles of the word xor to 0xF, as R72 asks of every packet sent (R104). -/
def NibblesXorToF (w : PacketWord) : Prop :=
  w.extractLsb' 12 4 ^^^ w.extractLsb' 8 4 ^^^ w.extractLsb' 4 4 ^^^ w.extractLsb' 0 4 = 0xF

/-- The checksum makes every packet word pass the check: the other three nibbles cancel (R103, R104). -/
theorem packetWord_nibblesXorToF (code : BitVec 2) (b a : Value) : NibblesXorToF (packetWord code b a) := by
  unfold NibblesXorToF
  rw [packetWord_nibble1, packetWord_outB, packetWord_outA, packetWord_check]
  generalize (0b01#2 ++ code : Value) = n1
  calc n1 ^^^ b ^^^ a ^^^ (0xF#4 ^^^ n1 ^^^ b ^^^ a)
      = (n1 ^^^ b ^^^ a) ^^^ ((n1 ^^^ b ^^^ a) ^^^ 0xF#4) := by
        rw [BitVec.xor_comm _ 0xF#4]
        simp only [BitVec.xor_assoc]
    _ = 0xF#4 := by rw [← BitVec.xor_assoc, BitVec.xor_self, BitVec.zero_xor]

/-- How many of the four nibbles have a 1 in bit `k`. -/
def columnOnes (w : PacketWord) (k : Nat) : Nat :=
  (w.getLsbD (12 + k)).toNat + (w.getLsbD (8 + k)).toNat + (w.getLsbD (4 + k)).toNat + (w.getLsbD k).toNat

/-- The ones of a word, counted by their place within the nibble. -/
theorem ones_eq_columnOnes (w : PacketWord) :
    ones w = columnOnes w 0 + columnOnes w 1 + columnOnes w 2 + columnOnes w 3 := by
  have hbit (b : Bool) : (if b = true then 1 else 0) = b.toNat := by cases b <;> rfl
  rw [ones, ← List.countP_eq_length_filter,
    show List.range 16 = [0, 1, 2, 3, 4, 5, 6, 7, 8, 9, 10, 11, 12, 13, 14, 15] from rfl]
  simp only [List.countP_cons, List.countP_nil, hbit, columnOnes, Nat.reduceAdd]
  omega

/-- Four bits that xor to 1 hold one 1 or three. -/
theorem toNat_add_of_xor : ∀ {b3 b2 b1 b0 : Bool}, (b3 ^^ b2 ^^ b1 ^^ b0) = true →
    b3.toNat + b2.toNat + b1.toNat + b0.toNat = 1 ∨ b3.toNat + b2.toNat + b1.toNat + b0.toNat = 3 := by
  decide

/-- Where the nibbles xor to 0xF, each bit of the nibble is 1 in one of them or in three. -/
theorem columnOnes_of_nibblesXorToF {w : PacketWord} (hw : NibblesXorToF w) {k : Nat} (hk : k < 4) :
    columnOnes w k = 1 ∨ columnOnes w k = 3 := by
  have hbit := congrArg (BitVec.getLsbD · k) (hw.trans (show (0xF : Value) = BitVec.allOnes 4 from rfl))
  simp only [BitVec.getLsbD_xor, BitVec.getLsbD_extractLsb', BitVec.getLsbD_allOnes, hk, decide_true, Bool.true_and,
    Nat.zero_add] at hbit
  exact toNat_add_of_xor hbit

/-- Four columns of one or three ones make an even number from 4 to 12 (R104 (d)). -/
theorem ones_of_nibblesXorToF {w : PacketWord} (hw : NibblesXorToF w) : Even (ones w) ∧ 4 ≤ ones w ∧ ones w ≤ 12 := by
  have h0 := columnOnes_of_nibblesXorToF hw (k := 0) (by decide)
  have h1 := columnOnes_of_nibblesXorToF hw (k := 1) (by decide)
  have h2 := columnOnes_of_nibblesXorToF hw (k := 2) (by decide)
  have h3 := columnOnes_of_nibblesXorToF hw (k := 3) (by decide)
  rw [ones_eq_columnOnes, Nat.even_iff]
  omega

/-! ### The four tests of APPLY -/

/-- A three-byte command with a named port decodes to its bytes (R60, R121). -/
theorem commandOperands_portByte (c v : Byte) (p : Port) : commandOperands [c, portByte p, v] = .ok (c, p, v) := by
  simp [commandOperands, commandWithPort]

/-- An idle encoder rejects a three-byte command with an illegal channel or value (R120, R150). -/
theorem exec_command3_rejected {s : State} {c v : Byte} (p : Port) (hs : s.Idle)
    (h : c.toNat = 0 ∨ 5 ≤ c.toNat ∨ 16 ≤ v.toNat) :
    ∃ r, exec (decode (.command [c, portByte p, v])) s = .next (rejection r s) := by
  rw [exec_command, acceptWhenIdle_idle hs]
  obtain ⟨r, hr⟩ | ⟨c', p', v', i, hc, hi, hv, -⟩ := applyCommand_cases [c, portByte p, v] s
  · exact ⟨r, by rw [hr]⟩
  · rw [commandOperands_portByte] at hc
    cases hc
    have := channelIndex_eq_some.1 hi
    omega

/-- Without their gaps, the packets of APPLY are the cached word's frame three times (R120). -/
theorem withoutGaps_apply (w : PacketWord) :
    withoutGaps (frameSyms w ++ [.G 30] ++ frameSyms w ++ [.G 30] ++ frameSyms w) =
      frameSyms w ++ frameSyms w ++ frameSyms w := by
  simp only [withoutGaps_append, withoutGaps_gap, withoutGaps_frameSyms, List.append_nil]

/-- Settles O39: a legal command is `applied`, whose packets carry the word of the written cache, and that word's checksum gives
it the properties of R104; any other command is a rejection, which leaves the cache and the idle trace. -/
theorem applyPassesTheSourceTests : Obligations.ApplyPassesTheSourceTests := by
  refine fun c v p s hs => ⟨fun i hc hv => ?legal, fun h => ?illegal⟩
  case legal =>
    have hi := channelIndex_eq_some.2 hc
    have hw := packetWord_nibblesXorToF (channelCode i)
    refine ⟨applied i c p v s, exec_command3_applied p hs hi hv, rfl, ?get, fun q hq => ?other, _,
      cachedWord (applied i c p v s).cache i, ?sent, withoutGaps_apply _, hw _ _, ?recomputed, packetWord_code ..,
      packetWord_outB .., packetWord_outA .., ones_of_nibblesXorToF (hw _ _)⟩
    case get =>
      rw [exec_get_legal p _ hi, applied_cache, readCell_writeCell_same]
      rfl
    case other => exact readCell_writeCell_other _ _ (by simp [hq])
    case sent => rw [applied_pending, hs, List.nil_append, sendEvents_apply_eq_expand, applied_cache]
    case recomputed => rw [cachedWord, packetWord_code, packetWord_outB, packetWord_outA]
  case illegal =>
    obtain ⟨r, hr⟩ := exec_command3_rejected p hs h
    exact ⟨_, r, hr, rfl, rfl, hs⟩

end Sys2Proof.Machine

/-!
PROOFS. A rejection by SET is the rejection of APPLY, whatever the length of the command (R141, R142), and it leaves no mark (R150).
-/
namespace Sys2Proof.Machine

/-! ### The checks of SET -/

/-- SET of a channel outside 1 to 4 fails its first check (R112, R141). -/
theorem setCell_illegalChannel {c : Byte} (h : c.toNat = 0 ∨ 5 ≤ c.toNat) (p : Port) (v : Byte) (s : State) :
    setCell c p v s = .error .invalidChannel := by
  have hn : channelIndex c.toNat = none := channelIndex_eq_none.2 (by omega)
  obtain ⟨i, hi, -, -⟩ | ⟨-, hs⟩ | ⟨hne, -, -⟩ := setCell_cases c p v s
  · cases hn.symm.trans hi
  · exact hs
  · exact absurd hn hne

/-- SET of a value above 15 fails, at the value check where the channel is legal (R112, R142). -/
theorem setCell_illegalValue {v : Byte} (h : 16 ≤ v.toNat) (c : Byte) (p : Port) (s : State) :
    ∃ r : Reason, (1 ≤ c.toNat → c.toNat ≤ 4 → r = .invalidValue) ∧ setCell c p v s = .error r := by
  obtain ⟨i, -, hv, -⟩ | ⟨hn, hs⟩ | ⟨-, -, hs⟩ := setCell_cases c p v s
  · omega
  · refine ⟨_, fun h1 h4 => ?_, hs⟩
    have := channelIndex_eq_none.1 hn
    omega
  · exact ⟨_, fun _ _ => rfl, hs⟩

/-! ### A failed SET rejects the operation it is part of -/

/-- A four-byte command with a named port and the Combo PWM mode decodes to its first three fields (R61, R121). -/
theorem commandOperands_comboPwm (c v : Byte) (p : Port) :
    commandOperands [c, portByte p, v, Config.modeComboPwm] = .ok (c, p, v) := by
  simp [commandOperands, commandWithPort]

/-- SET is rejected with the reason of the check that fails (R112, R150). -/
theorem exec_set_of_setCell_error {c v : Byte} {p : Port} {s : State} {r : Reason} (h : setCell c p v s = .error r) :
    exec (.set c p v) s = .next (rejection r s) := by
  simp only [exec, execSet, h]

/-- An idle encoder rejects a command whose SET fails, with SET's reason (R120, R150). -/
theorem exec_command_of_setCell_error {cmd : List Byte} {c v : Byte} {p : Port} {s : State} {r : Reason} (hs : s.Idle)
    (hc : commandOperands cmd = .ok (c, p, v)) (h : setCell c p v s = .error r) :
    exec (decode (.command cmd)) s = .next (rejection r s) := by
  rw [exec_command, acceptWhenIdle_idle hs]
  simp only [applyCommand, hc, h]

/-- Where SET fails, SET and APPLY of either length are one and the same rejection. -/
theorem exec_set_and_commands_of_setCell_error {c v : Byte} {p : Port} {s : State} {r : Reason}
    (h : setCell c p v s = .error r) :
    exec (.set c p v) s = .next (rejection r s) ∧
    (s.Idle →
      exec (decode (.command [c, portByte p, v])) s = .next (rejection r s) ∧
      exec (decode (.command [c, portByte p, v, Config.modeComboPwm])) s = .next (rejection r s)) :=
  ⟨exec_set_of_setCell_error h, fun hs =>
    ⟨exec_command_of_setCell_error hs (commandOperands_portByte c v p) h,
      exec_command_of_setCell_error hs (commandOperands_comboPwm c v p) h⟩⟩

/-- Settles O32: the channel check is SET's first, so the reason is `invalidChannel` whatever the value. -/
theorem channelOutsideOneToFourIsRejected : Obligations.ChannelOutsideOneToFourIsRejected := fun _ v p s hc =>
  ⟨.invalidChannel, fun _ => rfl, exec_set_and_commands_of_setCell_error (setCell_illegalChannel hc p v s)⟩

/-- Settles O33: SET compares the whole value byte, so no value above 15 passes its checks. -/
theorem valueAboveFifteenIsRejected : Obligations.ValueAboveFifteenIsRejected := by
  intro c v p s hv
  obtain ⟨r, hr, hset⟩ := setCell_illegalValue hv c p s
  exact ⟨r, hr, exec_set_and_commands_of_setCell_error hset⟩

/-! ### What a rejected command leaves -/

@[simp] theorem applied_results (i : Fin 4) (c : Byte) (p : Port) (v : Byte) (s : State) :
    (applied i c p v s).results = s.results ++ [.ok] := rfl

/-- An APPLY that hands back a failure is the rejection with that reason, since one that writes hands back `ok` (R120, R150). -/
theorem applyCommand_eq_rejection {cmd : List Byte} {s : State} {r : Reason}
    (h : (applyCommand cmd s).results = s.results ++ [.fail r]) : applyCommand cmd s = rejection r s := by
  obtain ⟨q, hq⟩ | ⟨c, p, v, i, -, -, -, ha⟩ := applyCommand_cases cmd s
  · rw [hq, rejection_results] at h
    obtain rfl : q = r := by simpa using h
    exact hq
  · rw [ha, applied_results] at h
    simp at h

/-- Settles O36: a command is accepted by an idle encoder only, and a rejection keeps the empty trace. -/
theorem rejectionLeavesNoMark : Obligations.RejectionLeavesNoMark := by
  intro cmd s t r ht hr
  rw [exec_command] at ht
  obtain ⟨hidle, rfl⟩ := acceptWhenIdle_next ht
  have hrej := applyCommand_eq_rejection hr
  exact ⟨hrej, by rw [hrej]; exact hidle⟩

end Sys2Proof.Machine

/-!
PROOFS. The encodings: decoding and encoding undo each other (R60 to R62, R71, R73), the command words select APPLY,
and the packet layout loses nothing (R63).
-/
namespace Sys2Proof.Machine

/-! ### Port bytes -/

/-- The port byte of a port is the only one that names it (R60). -/
theorem portOf_eq_some {b : Byte} {p : Port} : portOf b = some p ↔ b = portByte p := by
  refine ⟨fun h => ?_, fun h => by rw [h, portOf_portByte]⟩
  unfold portOf at h
  split at h
  · rename_i hb
    cases h
    exact BitVec.eq_of_toNat_eq hb
  · split at h
    · rename_i hb
      cases h
      exact BitVec.eq_of_toNat_eq hb
    · cases h

/-- The port bytes that name no port are 2 to 255 (R66, R71). -/
theorem portOf_eq_none {b : Byte} : portOf b = none ↔ 1 < b.toNat := by
  unfold portOf
  split
  · simp only [reduceCtorEq, false_iff]
    omega
  · split
    · simp only [reduceCtorEq, false_iff]
      omega
    · simp only [true_iff]
      omega

/-! ### Requests and operations -/

/-- Bytes that match no APPLY row decode to the rejecting row with all of them (R71). -/
theorem decodeCommand_unmatched {cmd : List Byte} (h : unmatchedCommand cmd = true) : decodeCommand cmd = .applyReject cmd := by
  unfold decodeCommand
  split
  · rw [portOf_eq_none.2 (of_decide_eq_true h)]
  · rw [portOf_eq_none.2 (of_decide_eq_true h)]
  · rfl

/-- Settles O12: a port byte 0 or 1 selects the row it was written for, a direct call is its own operation, and an unmatched command
stays unmatched. -/
theorem decodeOfEncodeIsTheOperation : Obligations.DecodeOfEncodeIsTheOperation := by
  intro i h
  cases i with
  | applyReject bytes => exact decodeCommand_unmatched h
  | _ => rfl

/-- A port byte below 2 is that of a port (R60). -/
theorem exists_port_of_not_lt {b : Byte} (h : ¬1 < b.toNat) : ∃ p, b = portByte p := by
  cases hp : portOf b with
  | some p => exact ⟨p, portOf_eq_some.1 hp⟩
  | none => exact absurd (portOf_eq_none.1 hp) h

/-- A command is unmatched, or it has three or four bytes and the port byte of a port (R60, R61, R71). -/
theorem unmatchedCommand_cases (cmd : List Byte) : unmatchedCommand cmd = true ∨
    ∃ c p v, cmd = [c, portByte p, v] ∨ ∃ m, cmd = [c, portByte p, v, m] := by
  match cmd with
  | [] | [_] | [_, _] | _ :: _ :: _ :: _ :: _ :: _ => exact .inl rfl
  | [c, b, v] =>
    by_cases hb : 1 < b.toNat
    · exact .inl (decide_eq_true hb)
    · obtain ⟨p, rfl⟩ := exists_port_of_not_lt hb
      exact .inr ⟨c, p, v, .inl rfl⟩
  | [c, b, v, m] =>
    by_cases hb : 1 < b.toNat
    · exact .inl (decide_eq_true hb)
    · obtain ⟨p, rfl⟩ := exists_port_of_not_lt hb
      exact .inr ⟨c, p, v, .inr ⟨m, rfl⟩⟩

/-- Encoding what a command selects gives the command back, and what it selects is well formed (R73, R77). -/
theorem encode_decodeCommand (cmd : List Byte) :
    encode (decodeCommand cmd) = .command cmd ∧ (decodeCommand cmd).wellFormed = true := by
  obtain hu | ⟨c, p, v, rfl | ⟨m, rfl⟩⟩ := unmatchedCommand_cases cmd
  · rw [decodeCommand_unmatched hu]
    exact ⟨rfl, hu⟩
  · cases p <;> exact ⟨rfl, rfl⟩
  · cases p <;> exact ⟨rfl, rfl⟩

/-- Settles O13: each row selected by a command keeps the bytes that its own port byte does not say. -/
theorem encodeOfDecodeIsTheRequest : Obligations.EncodeOfDecodeIsTheRequest := by
  intro r h
  cases r with
  | command cmd => exact encode_decodeCommand cmd
  | tick => exact ⟨rfl, rfl⟩
  | reset => exact ⟨rfl, rfl⟩
  | call i => cases h

/-! ### Table words -/

/-- A table word of 24 bits is the command of its three bytes, the top one first (R60). -/
theorem decodeTableWord_three {w : Nat} {a b c : Byte} (h : w = a.toNat * 65536 + b.toNat * 256 + c.toNat) :
    decodeTableWord 24 w = some (decodeCommand [a, b, c]) := by
  have ha : BitVec.ofNat 8 (w / 256 ^ 2) = a := BitVec.eq_of_toNat_eq (by simp only [BitVec.toNat_ofNat]; omega)
  have hb : BitVec.ofNat 8 (w / 256 ^ 1) = b := BitVec.eq_of_toNat_eq (by simp only [BitVec.toNat_ofNat]; omega)
  have hc : BitVec.ofNat 8 (w / 256 ^ 0) = c := BitVec.eq_of_toNat_eq (by simp only [BitVec.toNat_ofNat]; omega)
  show some (decodeCommand [BitVec.ofNat 8 (w / 256 ^ 2), BitVec.ofNat 8 (w / 256 ^ 1), BitVec.ofNat 8 (w / 256 ^ 0)]) = _
  rw [ha, hb, hc]

/-- A table word of 32 bits is the command of its four bytes, the top one first (R61). -/
theorem decodeTableWord_four {w : Nat} {a b c d : Byte}
    (h : w = a.toNat * 16777216 + b.toNat * 65536 + c.toNat * 256 + d.toNat) :
    decodeTableWord 32 w = some (decodeCommand [a, b, c, d]) := by
  have ha : BitVec.ofNat 8 (w / 256 ^ 3) = a := BitVec.eq_of_toNat_eq (by simp only [BitVec.toNat_ofNat]; omega)
  have hb : BitVec.ofNat 8 (w / 256 ^ 2) = b := BitVec.eq_of_toNat_eq (by simp only [BitVec.toNat_ofNat]; omega)
  have hc : BitVec.ofNat 8 (w / 256 ^ 1) = c := BitVec.eq_of_toNat_eq (by simp only [BitVec.toNat_ofNat]; omega)
  have hd : BitVec.ofNat 8 (w / 256 ^ 0) = d := BitVec.eq_of_toNat_eq (by simp only [BitVec.toNat_ofNat]; omega)
  show some (decodeCommand [BitVec.ofNat 8 (w / 256 ^ 3), BitVec.ofNat 8 (w / 256 ^ 2), BitVec.ofNat 8 (w / 256 ^ 1),
    BitVec.ofNat 8 (w / 256 ^ 0)]) = _
  rw [ha, hb, hc, hd]

/-- Settles O14: the second byte of the word is the port byte 0 or 1. -/
theorem commandWordsSelectApply : Obligations.CommandWordsSelectApply := fun c v m =>
  ⟨decodeTableWord_three (b := 0) (by simp), decodeTableWord_three (b := 1) (by simp),
    decodeTableWord_four (b := 0) (by simp), decodeTableWord_four (b := 1) (by simp)⟩

/-- Settles O15: each word is decoded by evaluation. -/
theorem sampleWordsDecode : Obligations.SampleWordsDecode := by
  unfold Obligations.SampleWordsDecode
  decide

/-! ### The packet layout -/

section
variable (code : BitVec 2) (b a l : Value)

@[simp] theorem encodePacket_top : (encodePacket code b a l).extractLsb' 14 2 = 0b01#2 :=
  (BitVec.extractLsb'_append_eq_of_le (by decide)).trans <|
    (BitVec.extractLsb'_append_eq_of_le (by decide)).trans <|
      (BitVec.extractLsb'_append_eq_of_le (by decide)).trans BitVec.extractLsb'_append_eq_left

@[simp] theorem encodePacket_code : (encodePacket code b a l).extractLsb' 12 2 = code :=
  (BitVec.extractLsb'_append_eq_of_le (by decide)).trans <|
    (BitVec.extractLsb'_append_eq_of_le (by decide)).trans <|
      (BitVec.extractLsb'_append_eq_of_le (by decide)).trans BitVec.extractLsb'_append_eq_right

@[simp] theorem encodePacket_outB : (encodePacket code b a l).extractLsb' 8 4 = b :=
  (BitVec.extractLsb'_append_eq_of_le (by decide)).trans <|
    (BitVec.extractLsb'_append_eq_of_le (by decide)).trans BitVec.extractLsb'_append_eq_right

@[simp] theorem encodePacket_outA : (encodePacket code b a l).extractLsb' 4 4 = a :=
  (BitVec.extractLsb'_append_eq_of_le (by decide)).trans BitVec.extractLsb'_append_eq_right

@[simp] theorem encodePacket_check : (encodePacket code b a l).extractLsb' 0 4 = l := BitVec.extractLsb'_append_eq_right

end

/-- A word is put together again from its five fields (R63). -/
theorem append_extractLsb'_fields (w : PacketWord) :
    w.extractLsb' 14 2 ++ w.extractLsb' 12 2 ++ w.extractLsb' 8 4 ++ w.extractLsb' 4 4 ++ w.extractLsb' 0 4 = w := by
  rw [BitVec.extractLsb'_append_extractLsb'_eq_extractLsb' (by decide),
    BitVec.extractLsb'_append_extractLsb'_eq_extractLsb' (by decide),
    BitVec.extractLsb'_append_extractLsb'_eq_extractLsb' (by decide),
    BitVec.extractLsb'_append_extractLsb'_eq_extractLsb' (by decide), BitVec.extractLsb'_eq_self]

/-- Bits 15:14 of a word are 01 exactly if the mask 0xC000 finds 0x4000 (R63). -/
theorem and_mask_eq_iff_top (w : PacketWord) : w &&& 0xC000 = 0x4000 ↔ w.extractLsb' 14 2 = 0b01#2 := by
  have hw : w = w.extractLsb' 14 2 ++ w.extractLsb' 0 14 := by
    rw [BitVec.extractLsb'_append_extractLsb'_eq_extractLsb' (by decide), BitVec.extractLsb'_eq_self]
  have hand : w &&& 0xC000 = w.extractLsb' 14 2 ++ 0#14 :=
    calc w &&& 0xC000 = (w.extractLsb' 14 2 ++ w.extractLsb' 0 14) &&& (BitVec.allOnes 2 ++ 0#14) := by rw [← hw]; rfl
      _ = w.extractLsb' 14 2 ++ 0#14 := by rw [BitVec.and_append, BitVec.and_allOnes, BitVec.and_zero]
  rw [hand, show (0x4000 : PacketWord) = 0b01#2 ++ 0#14 from rfl, BitVec.append_left_inj]

/-- A word decodes to fields exactly if it is the word of these fields (R63). -/
theorem decodePacket_eq_some {w : PacketWord} {code : BitVec 2} {b a l : Value} :
    decodePacket w = some (.pktComboPwm code b a l) ↔ encodePacket code b a l = w := by
  constructor
  · intro h
    unfold decodePacket at h
    split at h
    · rename_i htop
      cases h
      rw [encodePacket, ← htop, append_extractLsb'_fields]
    · cases h
  · rintro rfl
    simp only [decodePacket, encodePacket_top, encodePacket_code, encodePacket_outB, encodePacket_outA, encodePacket_check,
      if_true]

/-- Settles O16: the five fields partition the word, so each direction is cutting it up and putting it together. -/
theorem packetLayoutRoundTrips : Obligations.PacketLayoutRoundTrips := by
  refine ⟨fun _ _ _ _ => decodePacket_eq_some.2 rfl, fun w => ?_, fun _ _ _ _ _ => decodePacket_eq_some.1⟩
  rw [Ne, and_mask_eq_iff_top]
  unfold decodePacket
  split <;> simp_all

end Sys2Proof.Machine

/-!
PROOFS. The traces of the operations that only send (R90 to R95, R100), and the invariant of the state (R13, R22, R29) under every step.
-/
namespace Sys2Proof.Machine

/-! ### Bursts: the traces of the Symbol Generator and the Packet Encoder -/

/-- A trace of carrier on and off without a delay, which begins high and ends low (R90, R95). -/
structure BurstTrace (es : List Event) : Prop where
  head : es.head? = some .H
  last : es.getLast? = some .L
  noDelay : ∀ ms, Event.D ms ∉ es

theorem BurstTrace.append {es fs : List Event} (he : BurstTrace es) (hf : BurstTrace fs) : BurstTrace (es ++ fs) where
  head := by rw [List.head?_append, he.head, Option.some_or]
  last := by rw [List.getLast?_append, hf.last, Option.some_or]
  noDelay ms h := (List.mem_append.1 h).elim (he.noDelay ms) (hf.noDelay ms)

theorem burstTrace_markEvents : BurstTrace markEvents :=
  ⟨rfl, rfl, fun ms => by simp [markEvents, carrierCycles, Config.markCycles]⟩

theorem burstTrace_symbolEvents (p : Nat) : BurstTrace (symbolEvents p) where
  head := rfl
  last := getLast?_symbolEvents p
  noDelay ms h := (List.mem_append.1 h).elim (burstTrace_markEvents.noDelay ms) fun h => by
    cases List.eq_of_mem_replicate h

theorem burstTrace_bitEvents (v : Bool) : BurstTrace (bitEvents v) := by
  cases v
  · exact burstTrace_symbolEvents Config.pause0
  · exact burstTrace_symbolEvents Config.pause1

theorem burstTrace_bitsEvents {w : Nat} (n : BitVec w) (k : Nat) : BurstTrace (bitsEvents n (k + 1)) := by
  induction k with
  | zero =>
    rw [bitsEvents, bitsEvents, List.append_nil]
    exact burstTrace_bitEvents _
  | succ k ih =>
    rw [bitsEvents]
    exact (burstTrace_bitEvents _).append ih

theorem burstTrace_nibbleEvents (n : Value) : BurstTrace (nibbleEvents n) := burstTrace_bitsEvents n 3

theorem burstTrace_packetEvents (code : BitVec 2) (b a : Value) : BurstTrace (packetEvents code b a) :=
  (((((burstTrace_symbolEvents _).append (burstTrace_nibbleEvents _)).append (burstTrace_nibbleEvents _)).append
    (burstTrace_nibbleEvents _)).append (burstTrace_nibbleEvents _)).append (burstTrace_symbolEvents _)

theorem burstTrace_frameEvents (w : PacketWord) : BurstTrace (frameEvents w) :=
  ((burstTrace_symbolEvents _).append (burstTrace_bitsEvents w 15)).append (burstTrace_symbolEvents _)

/-- The encoder's checksum is the one the packet layout requires (R63, R103). -/
theorem checksum_nibble1 (code : BitVec 2) (b a : Value) : checksum (nibble1 code) b a = requiredChecksum code b a := by
  rw [nibble1_eq_append]
  rfl

/-- An operation that only sends appends one burst, the same in every state, or is ill formed and refused in every state (R95, R100). -/
theorem exec_onlySends_burst {i : Instr} (h : i.onlySends = true) :
    (∃ es, BurstTrace es ∧ ∀ s, exec i s = .next (emitAll es s)) ∨
    (i.wellFormed = false ∧ ∃ r, ∀ s, exec i s = .refused r) := by
  cases i with
  | encodeAndSend c b a =>
    cases hc : channelIndex c with
    | some i => exact .inl ⟨_, burstTrace_packetEvents (channelCode i) (maskOutput b) (maskOutput a), fun s => by
        simp only [exec, execEncodeAndSend, hc]⟩
    | none =>
      have hl : legalChannel c = false := by
        have := channelIndex_eq_none.1 hc
        simp only [legalChannel, Bool.and_eq_false_iff, decide_eq_false_iff_not]
        omega
      exact .inr ⟨by simp [Instr.wellFormed, hl], .channelPrecondition, fun s => by simp only [exec, execEncodeAndSend, hc]⟩
  | pktComboPwm code b a l =>
    by_cases hl : l = checksum (nibble1 code) b a
    · exact .inl ⟨_, burstTrace_frameEvents (encodePacket code b a l), fun s => if_pos hl⟩
    · exact .inr ⟨beq_eq_false_iff_ne.2 (checksum_nibble1 code b a ▸ hl), .packetChecksum, fun s => if_neg hl⟩
  | nibble n => exact .inl ⟨_, burstTrace_nibbleEvents n, fun _ => rfl⟩
  | bit v => exact .inl ⟨_, burstTrace_bitEvents v, fun _ => rfl⟩
  | symbol p => exact .inl ⟨_, burstTrace_symbolEvents p, fun _ => rfl⟩
  | mark => exact .inl ⟨_, burstTrace_markEvents, fun _ => rfl⟩
  | symSS => exact .inl ⟨_, burstTrace_symbolEvents _, fun _ => rfl⟩
  | symB0 => exact .inl ⟨_, burstTrace_symbolEvents _, fun _ => rfl⟩
  | symB1 => exact .inl ⟨_, burstTrace_symbolEvents _, fun _ => rfl⟩
  | _ => cases h

/-- Settles O46: the appended trace is a burst, and only ill-formed senders are refused. -/
theorem sendersOnlyAppendTheirTrace : Obligations.SendersOnlyAppendTheirTrace := by
  intro i hi hw
  obtain ⟨es, he, hx⟩ | ⟨hill, -⟩ := exec_onlySends_burst hi
  · exact ⟨es, he.head, he.last, hx⟩
  · rw [hw] at hill
    cases hill

/-! ### Traces that leave the pin at rest -/

/-- What any operation may append to the pending trace: its delays are positive, and it leaves the pin low (R13, R22). -/
structure RestingTrace (es : List Event) : Prop where
  rests : ∀ e, es.getLast? = some e → e.level = .low
  delaysPositive : ∀ ms, Event.D ms ∈ es → 0 < ms

theorem restingTrace_nil : RestingTrace [] := ⟨by simp, by simp⟩

theorem RestingTrace.append {es fs : List Event} (he : RestingTrace es) (hf : RestingTrace fs) : RestingTrace (es ++ fs) where
  rests e h := by
    rw [List.getLast?_append, Option.or_eq_some_iff] at h
    obtain h | ⟨-, h⟩ := h
    · exact hf.rests e h
    · exact he.rests e h
  delaysPositive ms h := (List.mem_append.1 h).elim (he.delaysPositive ms) (hf.delaysPositive ms)

theorem BurstTrace.resting {es : List Event} (h : BurstTrace es) : RestingTrace es where
  rests e he := by
    rw [h.last] at he
    cases he
    rfl
  delaysPositive ms hm := absurd hm (h.noDelay ms)

theorem restingTrace_delayEvents (d : Nat) : RestingTrace (delayEvents d) := by
  by_cases h : d = 0
  · rw [h, delayEvents_zero]
    exact restingTrace_nil
  · rw [delayEvents_pos (Nat.pos_of_ne_zero h)]
    exact ⟨by simp [Event.level], by simp; omega⟩

theorem restingTrace_sendEvents (c : Cache) (i : Fin 4) (d : Nat) : ∀ r, RestingTrace (sendEvents c i r d)
  | 0 => restingTrace_nil
  | 1 => (burstTrace_packetEvents ..).resting
  | r + 2 => ((burstTrace_packetEvents ..).resting.append (restingTrace_delayEvents d)).append
      (restingTrace_sendEvents c i d (r + 1))

theorem restingTrace_refreshEvents (c : Cache) : ∀ is, RestingTrace (refreshEvents c is)
  | [] => restingTrace_nil
  | [i] => restingTrace_sendEvents c i _ _
  | i :: j :: rest => ((restingTrace_sendEvents c i _ _).append (restingTrace_delayEvents _)).append
      (restingTrace_refreshEvents c (j :: rest))

/-! ### The invariant -/

/-- Appending a resting trace keeps the invariant. -/
theorem State.Inv.emitAll {s : State} {es : List Event} (hs : s.Inv) (he : RestingTrace es) : (emitAll es s).Inv where
  pinRests := ⟨fun h => hs.pinRests.1 (List.append_eq_nil_iff.1 h).1,
    (RestingTrace.append ⟨hs.pinRests.2, fun ms h => hs.delaysPositive ms (List.mem_append_right _ h)⟩ he).rests⟩
  delaysPositive ms h := by
    rw [emitAll_emitted, emitAll_pending, ← List.append_assoc] at h
    exact (List.mem_append.1 h).elim (hs.delaysPositive ms) (he.delaysPositive ms)
  echoLegal := hs.echoLegal

/-- The invariant does not speak of the cache, the requests or the results. -/
theorem State.Inv.of_eq {s t : State} (hs : s.Inv) (hpin : t.pin = s.pin) (hpend : t.pending = s.pending)
    (hemit : t.emitted = s.emitted) (hlast : t.last = s.last) : t.Inv where
  pinRests := by rw [hpin, hpend]; exact hs.pinRests
  delaysPositive := by rw [hemit, hpend]; exact hs.delaysPositive
  echoLegal := by rw [hlast]; exact hs.echoLegal

/-- Driving the first pending event keeps the invariant: the last one to be driven leaves the pin low (R22, R24). -/
theorem State.Inv.driveEvent {s : State} {e : Event} {rest : List Event} (hs : s.Inv) (hp : s.pending = e :: rest) :
    (driveEvent e rest s).Inv where
  pinRests := by
    refine ⟨fun h => hs.pinRests.2 e ?_, fun f hf => hs.pinRests.2 f ?_⟩
    · rw [hp, show rest = [] from h]
      rfl
    · rw [hp, List.getLast?_cons, show rest.getLast? = some f from hf]
      rfl
  delaysPositive ms h := hs.delaysPositive ms (by rw [hp]; simpa using h)
  echoLegal := hs.echoLegal

/-- An accepted command keeps the invariant: it records a legal channel, only where the echo exists (R29). -/
theorem State.Inv.applied {s : State} {i : Fin 4} {c : Byte} (hs : s.Inv) (hi : channelIndex c.toNat = some i) (p : Port)
    (v : Byte) : (applied i c p v s).Inv where
  pinRests := (hs.emitAll (restingTrace_sendEvents ..)).pinRests
  delaysPositive := (hs.emitAll (restingTrace_sendEvents ..)).delaysPositive
  echoLegal l hl := by
    have hc := channelIndex_eq_some.1 hi
    have hl : (if Config.hasEcho = true then some { channel := c, port := p, value := v.setWidth 4 } else s.last) = some l := hl
    split at hl
    · rename_i he
      cases hl
      exact ⟨he, by simp only; omega, by simp only; omega⟩
    · exact hs.echoLegal l hl

/-- APPLY of any bytes keeps the invariant (R120, R150). -/
theorem State.Inv.applyCommand {s : State} (hs : s.Inv) (cmd : List Byte) : (applyCommand cmd s).Inv := by
  obtain ⟨r, hr⟩ | ⟨c, p, v, i, -, hi, -, ha⟩ := applyCommand_cases cmd s
  · rw [hr]
    exact hs.of_eq rfl rfl rfl rfl
  · rw [ha]
    exact hs.applied hi p v

/-- Construction of an idle encoder keeps the invariant (R170). -/
theorem State.Inv.construct {s : State} (hs : s.Inv) : (construct s).Inv where
  pinRests := ⟨fun _ => rfl, by simp⟩
  delaysPositive ms h := hs.delaysPositive ms (by simp at h; simp [h])
  echoLegal := by simp

/-- Every operation keeps the invariant. -/
theorem State.Inv.exec {i : Instr} {s t : State} (hs : s.Inv) (h : exec i s = .next t) : t.Inv := by
  obtain ⟨hi, -⟩ | ⟨-, r, rfl⟩ | ⟨-, -, -, cmd, rfl, -⟩ | ⟨-, -, rfl⟩ | ⟨-, -, rfl⟩ | ⟨c, p, v, j, -, -, -, rfl⟩ |
    ⟨c, r, d, j, -, -, rfl⟩ := exec_cases h
  · obtain ⟨es, he, hx⟩ | ⟨-, r, hx⟩ := exec_onlySends_burst hi <;> rw [hx] at h <;> cases h
    exact hs.emitAll he.resting
  · exact hs.of_eq rfl rfl rfl rfl
  · exact hs.applyCommand cmd
  · exact hs.construct
  · exact (hs.emitAll (restingTrace_refreshEvents ..)).of_eq rfl rfl rfl rfl
  · exact hs.of_eq rfl rfl rfl rfl
  · exact (hs.emitAll (restingTrace_sendEvents ..)).of_eq rfl rfl rfl rfl

/-- Settles O49: driving an event and every operation keep the invariant. -/
theorem stepKeepsTheInvariant : Obligations.StepKeepsTheInvariant := by
  intro s t hs h
  obtain ⟨e, rest, hp, rfl⟩ | ⟨-, -, rfl⟩ | ⟨r, rs, -, -, hx⟩ := step_cases h
  · exact hs.driveEvent hp
  · exact hs
  · exact State.Inv.exec (s := { s with requests := rs }) (hs.of_eq rfl rfl rfl rfl) hx

end Sys2Proof.Machine

/-!
PROOFS. The environment's requests: what an accepted one leaves, the verdict on a command (R149), the legal waveform (R48, R72),
the echo (R29), and the atomic view of a sequence of requests (R12, R188).
-/
namespace Sys2Proof.Machine

/-! ### The waveform of an accepted operation -/

/-- The packet of a channel's cached values as an item of the waveform (R124). -/
def channelItem (c : Cache) (i : Fin 4) : OutItem := .packet (channelCode i) (readCell c i .b) (readCell c i .a)

@[simp] theorem syms_channelItem (c : Cache) (i : Fin 4) : (channelItem c i).syms = frameSyms (cachedWord c i) := rfl

@[simp] theorem syms_gap (ms : Nat) : (OutItem.gap ms).syms = [.G ms] := rfl

/-- The items of an accepted command: one packet three times, with two gaps (R120). -/
def applyItems (c : Cache) (i : Fin 4) : List OutItem :=
  [channelItem c i, .gap 30, channelItem c i, .gap 30, channelItem c i]

/-- The items of REFRESH_ALL: four packets with three gaps (R126). -/
def refreshItems (c : Cache) : List OutItem :=
  [channelItem c 0, .gap 5, channelItem c 1, .gap 5, channelItem c 2, .gap 5, channelItem c 3]

theorem sendEvents_apply_eq_items (c : Cache) (i : Fin 4) :
    sendEvents c i Config.applyRepeats Config.applyDelayMs = expand ((applyItems c i).flatMap OutItem.syms) := by
  rw [sendEvents_apply_eq_expand]
  simp [applyItems]

theorem refreshEvents_eq_items (c : Cache) :
    refreshEvents c [0, 1, 2, 3] = expand ((refreshItems c).flatMap OutItem.syms) := by
  rw [refreshEvents_eq_expand]
  simp [refreshItems]

/-- The events are a sequence of packets and gaps, at most so many of each (R48, R185). -/
def LegalTrace (packets gaps : Nat) (es : List Event) : Prop :=
  ∃ items : List OutItem, es = expand (items.flatMap OutItem.syms) ∧
    (items.filter fun x => x.isPacket).length ≤ packets ∧ (items.filter fun x => !x.isPacket).length ≤ gaps

theorem legalTrace_nil (packets gaps : Nat) : LegalTrace packets gaps [] := ⟨[], rfl, Nat.zero_le _, Nat.zero_le _⟩

/-- APPLY on an idle encoder leaves at most three packets and two gaps pending (R120, R185). -/
theorem legalTrace_applyCommand {s : State} (hs : s.pending = []) (cmd : List Byte) :
    LegalTrace 3 2 (applyCommand cmd s).pending := by
  obtain ⟨r, hr⟩ | ⟨c, p, v, i, -, -, -, ha⟩ := applyCommand_cases cmd s
  · rw [hr, rejection_pending, hs]
    exact legalTrace_nil 3 2
  · rw [ha, applied_pending, hs, List.nil_append, sendEvents_apply_eq_items]
    exact ⟨_, rfl, Nat.le_refl 3, Nat.le_refl 2⟩

theorem applyCommand_emitted (cmd : List Byte) (s : State) : (applyCommand cmd s).emitted = s.emitted := by
  obtain ⟨r, hr⟩ | ⟨c, p, v, i, -, -, -, ha⟩ := applyCommand_cases cmd s
  · rw [hr, rejection_emitted]
  · rw [ha]
    rfl

/-- An operation selected from outside is accepted by an idle encoder only, drives nothing itself, and leaves whole packets and gaps pending:
four and three at most for REFRESH_ALL, three and two for every other (R48, R147, R185). -/
theorem exec_external_trace {i : Instr} {s t : State} (hi : i.external = true) (h : exec i s = .next t) :
    s.pending = [] ∧ t.emitted = s.emitted ∧
      LegalTrace (if i = .refreshAll then 4 else 3) (if i = .refreshAll then 3 else 2) t.pending := by
  obtain ⟨cmd, hc, -, hr⟩ | rfl | rfl := exec_external hi
  · rw [hc] at h
    obtain ⟨hs, rfl⟩ := acceptWhenIdle_next h
    rw [if_neg hr, if_neg hr]
    exact ⟨hs, applyCommand_emitted cmd s, legalTrace_applyCommand hs cmd⟩
  · obtain ⟨hs, rfl⟩ := acceptWhenIdle_next h
    refine ⟨hs, rfl, refreshItems s.cache, ?_, Nat.le_refl 4, Nat.le_refl 3⟩
    rw [report_pending, emitAll_pending, hs, List.nil_append, refreshEvents_eq_items]
  · obtain ⟨hs, rfl⟩ := acceptWhenIdle_next h
    exact ⟨hs, rfl, legalTrace_nil 3 2⟩

/-- The next request of an environment-only state is the environment's. -/
theorem State.ExternalOnly.head {s : State} {r : Request} {rs : List Request} (hx : s.ExternalOnly) (h : s.requests = r :: rs) :
    r.external = true :=
  hx r (by rw [h]; exact List.mem_cons_self)

/-- Settles O50: driving an event moves it within the waveform, and an accepted operation appends whole packets and gaps. -/
theorem stepKeepsTheWaveformLegal : Obligations.StepKeepsTheWaveformLegal := by
  intro s t hx hl h
  obtain ⟨items, hitems⟩ := hl
  obtain ⟨e, rest, hp, rfl⟩ | ⟨-, -, rfl⟩ | ⟨r, rs, hp, hr, he⟩ := step_cases h
  · exact ⟨items, by rw [← hitems, hp]; simp⟩
  · exact ⟨items, hitems⟩
  · obtain ⟨-, hemit, new, hnew, -, -⟩ := exec_external_trace (decode_external (hx.head hr)) he
    refine ⟨items ++ new, ?_⟩
    rw [hp, List.append_nil] at hitems
    rw [hemit, hnew, List.flatMap_append, expand_append, ← hitems]

/-! ### The echo -/

/-- The echo agrees with the cache where both are as in a state where it does. -/
theorem State.EchoMatchesCache.of_eq {s t : State} (hs : s.EchoMatchesCache) (hc : t.cache = s.cache) (hl : t.last = s.last) :
    t.EchoMatchesCache := by
  unfold State.EchoMatchesCache
  rw [hc, hl]
  exact hs

/-- An accepted command records the cell it wrote; without the echo nothing is ever recorded (R29, R120). -/
theorem echoMatchesCache_applied {s : State} {i : Fin 4} {c : Byte} (hs : s.Inv) (hi : channelIndex c.toNat = some i)
    (p : Port) (v : Byte) : (applied i c p v s).EchoMatchesCache := by
  intro l hl
  have hl : (if Config.hasEcho = true then some { channel := c, port := p, value := v.setWidth 4 } else s.last) = some l := hl
  split at hl
  · cases hl
    exact ⟨i, hi, readCell_writeCell_same ..⟩
  · rename_i hn
    exact absurd (hs.echoLegal l hl).1 hn

/-- Settles O51: only an accepted command and a reset write a cell, and each leaves an echo of its own. -/
theorem stepKeepsEchoAndCacheInAgreement : Obligations.StepKeepsEchoAndCacheInAgreement := by
  intro s t hs hx hm h
  obtain ⟨e, rest, -, rfl⟩ | ⟨-, -, rfl⟩ | ⟨r, rs, -, hr, he⟩ := step_cases h
  · exact hm.of_eq rfl rfl
  · exact hm
  · obtain ⟨cmd, hc, -, -⟩ | hc | hc := exec_external (decode_external (hx.head hr)) <;> rw [hc] at he <;>
      obtain ⟨-, rfl⟩ := acceptWhenIdle_next he
    · obtain ⟨q, hq⟩ | ⟨c, p, v, i, -, hi, -, ha⟩ := applyCommand_cases cmd { s with requests := rs }
      · rw [hq]
        exact hm.of_eq rfl rfl
      · rw [ha]
        exact echoMatchesCache_applied (s := { s with requests := rs }) (hs.of_eq rfl rfl rfl rfl) hi p v
    · exact hm.of_eq rfl rfl
    · intro l hl
      cases hl

/-! ### The verdict on a command -/

/-- The reason with which APPLY rejects decoded operands, if it does: first the decoding's own, then channel, then value (R120, R121). -/
def operandVerdict : Except Reason (Byte × Port × Byte) → Option Reason
  | .error r => some r
  | .ok (c, _, v) =>
    if c.toNat = 0 ∨ 4 < c.toNat then some .invalidChannel else if 15 < v.toNat then some .invalidValue else none

/-- A port byte from 2 up is neither of the two port bytes (R71). -/
theorem ne_zero_and_ne_one_of_lt {b : Byte} (h : 1 < b.toNat) : b ≠ 0#8 ∧ b ≠ 1#8 :=
  ⟨by rintro rfl; simp at h, by rintro rfl; simp at h⟩

/-- The port check comes before those of channel and value (R149). -/
theorem operandVerdict_commandWithPort (c b v : Byte) : operandVerdict (commandWithPort c b v) =
    if b ≠ 0 ∧ b ≠ 1 then some .invalidPort else operandVerdict (.ok (c, .a, v)) := by
  unfold commandWithPort
  cases hp : portOf b with
  | none =>
    exact (if_pos (ne_zero_and_ne_one_of_lt (portOf_eq_none.1 hp))).symm
  | some p =>
    have hn : ¬(b ≠ 0 ∧ b ≠ 1) := by
      rw [portOf_eq_some.1 hp]
      cases p <;> decide
    rw [if_neg hn]
    rfl

/-- The checks of APPLY, in their order, are those of the spec's table (R140, R149). -/
theorem verdict_eq_operandVerdict (cmd : List Byte) : verdict cmd = operandVerdict (commandOperands cmd) := by
  match cmd with
  | [] | [_] | [_, _] => rfl
  | [c, b, v] =>
    rw [commandOperands, operandVerdict_commandWithPort]
    simp [verdict, operandVerdict]
  | [c, b, v, m] =>
    by_cases hm : m = Config.modeComboPwm
    · rw [commandOperands, if_neg (not_not.2 hm), operandVerdict_commandWithPort]
      simp [verdict, operandVerdict, hm]
    · rw [commandOperands, if_pos hm]
      simp [verdict, operandVerdict, hm]
  | _ :: _ :: _ :: _ :: _ :: _ => simp [verdict, commandOperands, operandVerdict]

/-- A command with a failing check is rejected with the first one's reason (R149, R150). -/
theorem applyCommand_of_verdict_some {cmd : List Byte} {r : Reason} (h : verdict cmd = some r) (s : State) :
    applyCommand cmd s = rejection r s := by
  rw [verdict_eq_operandVerdict] at h
  unfold applyCommand
  cases ho : commandOperands cmd with
  | error q =>
    rw [ho] at h
    cases h
    rfl
  | ok o =>
    obtain ⟨c, p, v⟩ := o
    rw [ho] at h
    simp only [operandVerdict] at h
    split at h
    · cases h
      simp only [setCell_illegalChannel (c := c) (by omega)]
    · split at h
      · cases h
        obtain ⟨q, hq, hset⟩ := setCell_illegalValue (v := v) (by omega) c p s
        simp only [hset, hq (by omega) (by omega)]
      · cases h

/-- A command that passes every check is applied, and what it decodes to does not depend on the state (R120). -/
theorem applyCommand_of_verdict_none {cmd : List Byte} (h : verdict cmd = none) :
    ∃ i c p v, ∀ s, applyCommand cmd s = applied i c p v s := by
  rw [verdict_eq_operandVerdict] at h
  cases ho : commandOperands cmd with
  | error q =>
    rw [ho] at h
    cases h
  | ok o =>
    obtain ⟨c, p, v⟩ := o
    rw [ho] at h
    simp only [operandVerdict] at h
    split at h
    · cases h
    · split at h
      · cases h
      · cases hi : channelIndex c.toNat with
        | none =>
          have := channelIndex_eq_none.1 hi
          omega
        | some i => exact ⟨i, c, p, v, fun s => applyCommand_applied s ho hi (by omega)⟩

/-- Settles O34: APPLY of the command is a rejection with the verdict, or it is applied and reports `ok`. -/
theorem firstFailingCheckDecidesTheResult : Obligations.FirstFailingCheckDecidesTheResult := by
  intro cmd s hs
  rw [exec_command, acceptWhenIdle_idle hs]
  refine ⟨fun r hr => by rw [applyCommand_of_verdict_some hr]; rfl, fun hn => ?_⟩
  obtain ⟨i, c, p, v, ha⟩ := applyCommand_of_verdict_none hn
  exact ⟨_, rfl, by rw [ha, applied_results]⟩

/-- Bytes that match no APPLY row fail at the length, the mode or the port (R71, R121). -/
theorem verdict_unmatched {cmd : List Byte} (h : unmatchedCommand cmd = true) : verdict cmd = some
    (if cmd.length ≠ 3 ∧ cmd.length ≠ 4 then .invalidLength
      else if cmd.length = 4 ∧ cmd[3]? ≠ some Config.modeComboPwm then .invalidMode else .invalidPort) := by
  match cmd with
  | [] | [_] | [_, _] => rfl
  | [c, b, v] =>
    obtain ⟨h0, h1⟩ := ne_zero_and_ne_one_of_lt (of_decide_eq_true h)
    simp [verdict, h0, h1]
  | [c, b, v, m] =>
    obtain ⟨h0, h1⟩ := ne_zero_and_ne_one_of_lt (of_decide_eq_true h)
    by_cases hm : m = Config.modeComboPwm
    · simp [verdict, h0, h1, hm]
    · simp [verdict, hm]
  | _ :: _ :: _ :: _ :: _ :: _ => simp [verdict]

/-- Settles O35: the rejecting row is APPLY of its bytes, whose verdict names one of the first three checks. -/
theorem rejectRowRejects : Obligations.RejectRowRejects := by
  intro cmd s hs hu
  show acceptWhenIdle .busy s (applyCommand cmd s) = _
  rw [acceptWhenIdle_idle hs, applyCommand_of_verdict_some (verdict_unmatched hu)]
  rfl

/-! ### The atomic view -/

/-- What an idle encoder is left with when it accepts a request of the environment; a direct call is none (R120, R126, R147, R170). -/
def accept : Request → State → State
  | .command cmd, s => applyCommand cmd s
  | .tick, s => report .ok (emitAll (refreshEvents s.cache [0, 1, 2, 3]) s)
  | .reset, s => construct s
  | .call _, s => s

/-- An idle encoder accepts every request of the environment (R140, R147). -/
theorem exec_decode_accept {r : Request} (hr : r.external = true) {s : State} (hs : s.pending = []) :
    exec (decode r) s = .next (accept r s) := by
  cases r with
  | command cmd => rw [exec_command, acceptWhenIdle_idle hs, accept]
  | tick => exact acceptWhenIdle_idle hs ..
  | reset => exact acceptWhenIdle_idle hs ..
  | call i => cases hr

/-- To accept a request does not look at those behind it, and keeps them (R147). -/
theorem accept_requests (r : Request) (s : State) (rs : List Request) :
    accept r { s with requests := rs } = { accept r s with requests := rs } := by
  cases r with
  | command cmd =>
    simp only [accept]
    cases hv : verdict cmd with
    | some q => rw [applyCommand_of_verdict_some hv, applyCommand_of_verdict_some hv]; rfl
    | none =>
      obtain ⟨i, c, p, v, ha⟩ := applyCommand_of_verdict_none hv
      rw [ha, ha]
      rfl
  | tick => rfl
  | reset => rfl
  | call i => rfl

/-- Accepting a request hands back one result, a reset none (R14; log entry 12). -/
theorem length_accept_results {r : Request} (hr : r.external = true) (s : State) :
    (accept r s).results.length = s.results.length + if r = .reset then 0 else 1 := by
  cases r with
  | command cmd =>
    obtain ⟨q, hq⟩ | ⟨c, p, v, i, -, -, -, ha⟩ := applyCommand_cases cmd s
    · simp [accept, hq]
    · simp [accept, ha]
  | tick => simp [accept]
  | reset => simp [accept]
  | call i => cases hr

/-- Serving a request on an idle encoder is to accept it and to drive its whole trace (R12). -/
theorem serve_eq_settle {r : Request} (hr : r.external = true) {s : State} (hs : s.pending = []) :
    serve r s = settle (accept r s) := by
  rw [serve, exec_decode_accept hr hs]

theorem serveAll_cons (r : Request) (rs : List Request) (s : State) : serveAll (r :: rs) s = serveAll rs (serve r s) := rfl

/-- To serve a request on an idle encoder does not look at those behind it, and keeps them (R147). -/
theorem serve_requests {r : Request} (hr : r.external = true) {s : State} (hs : s.pending = []) (rs : List Request) :
    serve r { s with requests := rs } = { serve r s with requests := rs } := by
  rw [serve_eq_settle hr hs, serve_eq_settle hr (s := { s with requests := rs }) hs, accept_requests]
  rfl

/-- Serving a request ends idle (R24). -/
theorem serve_pending {r : Request} (hr : r.external = true) {s : State} (hs : s.pending = []) : (serve r s).pending = [] := by
  rw [serve_eq_settle hr hs, settle_pending]

/-! ### Runs of steps -/

/-- A busy encoder drives its first pending event (R24). -/
theorem step_busy {s : State} {e : Event} {rest : List Event} (h : s.pending = e :: rest) :
    step s = .next (driveEvent e rest s) := by
  cases s
  cases h
  rfl

/-- An idle encoder runs the operation its first request selects (R147). -/
theorem step_idle {s : State} {r : Request} {rs : List Request} (hp : s.pending = []) (hr : s.requests = r :: rs) :
    step s = exec (decode r) { s with requests := rs } := by
  cases s
  cases hp
  cases hr
  rfl

/-- An idle encoder without a request stays as it is (R159). -/
theorem step_idle_nil {s : State} (hp : s.pending = []) (hr : s.requests = []) : step s = .next s := by
  cases s
  cases hp
  cases hr
  rfl

theorem run_succ_of_step {M : Host.Core} {s t : M.State} {n : Nat} (h : M.step s = .next t) : M.run (n + 1) s = M.run n t := by
  simp only [Host.Core.run, h]

/-- Stepping through the pending events, one by one, is to drive the whole trace at once (R12, R24). -/
theorem run_pending (s : State) : Host.Core.run Sys2Proof.core s.pending.length s = .next (settle s) := by
  generalize hp : s.pending = es
  induction es generalizing s with
  | nil =>
    show Host.Outcome.next s = .next (settle s)
    cases s
    cases hp
    simp [settle]
  | cons e rest ih =>
    have hsettle : settle (driveEvent e rest s) = settle s := by simp [settle, driveEvent, hp]
    rw [← hsettle]
    exact (run_succ_of_step (step_busy hp)).trans (ih (driveEvent e rest s) rfl)

/-- Under the invariant the pin is low once the whole trace has been driven (R22). -/
theorem State.Inv.settle_pin {s : State} (hs : s.Inv) : (settle s).pin = .low := by
  rw [Machine.settle_pin]
  cases hp : s.pending using List.reverseRecOn with
  | nil => exact hs.pinRests.1 hp
  | append_singleton es e =>
    rw [List.foldl_append]
    exact hs.pinRests.2 e (by rw [hp, List.getLast?_concat])

/-- Settles O7: the steps drive the whole trace, and the invariant puts the pin low after it. -/
theorem busyEncoderRunsItsTraceToTheEnd : Obligations.BusyEncoderRunsItsTraceToTheEnd := by
  intro s hs
  rw [run_pending, ← hs.settle_pin]
  rfl

/-- Settles O8: a busy step keeps the requests, and an idle one accepts the first of them. -/
theorem environmentRequestsNeverStopTheMachine : Obligations.EnvironmentRequestsNeverStopTheMachine := by
  intro s hx
  cases hp : s.pending with
  | cons e rest => exact ⟨_, step_busy hp, hx⟩
  | nil =>
    cases hr : s.requests with
    | nil => exact ⟨s, step_idle_nil hp hr, hx⟩
    | cons r rs =>
      refine ⟨_, (step_idle hp hr).trans (exec_decode_accept (hx.head hr) hp), ?_⟩
      rw [accept_requests]
      exact fun q hq => hx q (by rw [hr]; exact List.mem_cons_of_mem _ hq)

/-- One step accepts the first request, and further steps drive its whole trace (R12, R147). -/
theorem exists_run_serve {s : State} {r : Request} {rs : List Request} (hs : s.pending = []) (hr : s.requests = r :: rs)
    (hx : r.external = true) : ∃ n, Host.Core.run Sys2Proof.core n s = .next { serve r s with requests := rs } := by
  have hstep : step s = .next (accept r { s with requests := rs }) := (step_idle hs hr).trans (exec_decode_accept hx hs)
  have hone : Host.Core.run Sys2Proof.core 1 s = .next (accept r { s with requests := rs }) := run_succ_of_step hstep
  refine ⟨_, (run_add hone).trans ((run_pending _).trans ?_)⟩
  rw [← serve_requests hx hs, serve_eq_settle hx (s := { s with requests := rs }) hs]

/-- Settles O9: by induction on the requests, each served in turn. -/
theorem requestSequenceIsServedInOrder : Obligations.RequestSequenceIsServedInOrder := by
  intro s
  generalize hr : s.requests = rs
  induction rs generalizing s with
  | nil =>
    intro hs _
    refine ⟨0, ?_, hs, rfl⟩
    show Host.Outcome.next s = .next { s with requests := [] }
    rw [← hr]
  | cons r rs ih =>
    intro hs hx
    have hr' := hx.head hr
    obtain ⟨m, hm⟩ := exists_run_serve hs hr hr'
    obtain ⟨n, hn, hrest⟩ := ih { serve r s with requests := rs } rfl (serve_pending hr' hs)
      fun q hq => hx q (by rw [hr]; exact List.mem_cons_of_mem _ hq)
    rw [serveAll_cons, serve_requests hr' hs]
    exact ⟨m + n, (run_add hm).trans hn, hrest⟩

/-- Settles O10: by induction on the requests, each of which leaves its one result, or as a reset none. -/
theorem eachRequestGetsOneResult : Obligations.EachRequestGetsOneResult := by
  intro rs
  induction rs with
  | nil => intro s _ _; rfl
  | cons r rs ih =>
    intro s hs hx
    obtain ⟨hr, hrs⟩ := List.forall_mem_cons.1 hx
    rw [serveAll_cons, ih _ (serve_pending hr hs) hrs, serve_eq_settle hr hs, settle_results, length_accept_results hr]
    by_cases h : r = .reset
    · simp [h]
    · simp [h]
      omega

/-- Settles O53: REFRESH_ALL touches neither cell nor echo, so the order matters to neither; and a rejected command sends nothing
and leaves the cells that REFRESH_ALL reads. -/
theorem eitherOrderEndsInTheSameCache : Obligations.EitherOrderEndsInTheSameCache := by
  intro cmd s hs ct tc
  have hct : ct = settle (accept .tick (settle (applyCommand cmd s))) := by
    show serve .tick (serve (.command cmd) s) = _
    rw [serve_eq_settle rfl (serve_pending rfl hs), serve_eq_settle rfl hs]
    rfl
  have htc : tc = settle (applyCommand cmd (settle (accept .tick s))) := by
    show serve (.command cmd) (serve .tick s) = _
    rw [serve_eq_settle rfl (serve_pending rfl hs), serve_eq_settle rfl hs]
    rfl
  rw [hct, htc]
  cases hv : verdict cmd with
  | some r =>
    rw [applyCommand_of_verdict_some hv, applyCommand_of_verdict_some hv]
    refine ⟨rfl, rfl, fun _ => ?_⟩
    simp [accept, show s.pending = [] from hs]
  | none =>
    obtain ⟨i, c, p, v, ha⟩ := applyCommand_of_verdict_none hv
    rw [ha, ha]
    exact ⟨rfl, rfl, fun h => absurd rfl h⟩

end Sys2Proof.Machine

/-!
PROOFS. The symbol trace and its pin trace: the pin trace determines the symbols (R94), the sizes of nibble and frame (R93, R105),
the packet row (R63), and the bound on an accepted trace (R185).
-/
namespace Sys2Proof.Machine

/-! ### The pin trace determines the symbol trace -/

theorem pause0_lt_pause1 : Config.pause0 < Config.pause1 := by simp only [Config.pause1]; omega

theorem pause1_lt_pauseSS : Config.pause1 < Config.pauseSS := by simp only [Config.pauseSS]; omega

/-- The pause of a symbol, in carrier cycles (R64); a gap has none. -/
def Sym.pause : Sym → Nat
  | .SS => Config.pauseSS
  | .B0 => Config.pause0
  | .B1 => Config.pause1
  | .G _ => 0

/-- A symbol is a mark and its own pause (R64, R94). -/
theorem expandOne_symbol {x : Sym} (h : x.isSymbol = true) : expandOne x = markEvents ++ List.replicate (2 * x.pause) .L := by
  cases x with
  | G ms => cases h
  | _ => rfl

/-- No two symbols have the same pause (R9). -/
theorem Sym.pause_inj {x y : Sym} (hx : x.isSymbol = true) (hy : y.isSymbol = true) (h : x.pause = y.pause) : x = y := by
  have h01 := pause0_lt_pause1
  have h1S := pause1_lt_pauseSS
  match x, y with
  | .SS, .SS | .B0, .B0 | .B1, .B1 => rfl
  | .SS, .B0 | .SS, .B1 | .B0, .SS | .B0, .B1 | .B1, .SS | .B1, .B0 =>
    simp only [Sym.pause] at h
    omega

/-- The pin trace of a symbol trace never begins low, so it cannot lengthen the pause of a symbol before it. -/
theorem head?_expand_ne_low (l : List Sym) : (expand l).head? ≠ some .L := by
  cases l with
  | nil => simp
  | cons x l =>
    rw [expand_cons]
    cases x with
    | G ms => simp [expandOne]
    | _ => simp [expandOne, List.replicate]

/-- The number of leading copies of an element, and what follows them, are determined by the list. -/
theorem replicate_append_inj {α : Type} {x : α} {l m : List α} (hl : l.head? ≠ some x) (hm : m.head? ≠ some x) :
    ∀ {a b : Nat}, List.replicate a x ++ l = List.replicate b x ++ m → a = b ∧ l = m
  | 0, 0, h => ⟨rfl, h⟩
  | 0, b + 1, h => absurd (congrArg List.head? h) hl
  | a + 1, 0, h => absurd (congrArg List.head? h.symm) hm
  | a + 1, b + 1, h => by
    obtain ⟨hab, hlm⟩ := replicate_append_inj hl hm (List.cons.inj h).2
    exact ⟨congrArg (· + 1) hab, hlm⟩

/-- The first element of a symbol trace can be read off the pin trace: a gap by its first event, a symbol by its number of low events. -/
theorem expandOne_append_inj {x y : Sym} {es fs : List Event} (he : es.head? ≠ some .L) (hf : fs.head? ≠ some .L)
    (h : expandOne x ++ es = expandOne y ++ fs) : x = y ∧ es = fs := by
  have symbols (hx : x.isSymbol = true) (hy : y.isSymbol = true) : x = y ∧ es = fs := by
    rw [expandOne_symbol hx, expandOne_symbol hy, List.append_assoc, List.append_assoc, List.append_cancel_left_eq] at h
    obtain ⟨hp, htail⟩ := replicate_append_inj he hf h
    exact ⟨Sym.pause_inj hx hy (by omega), htail⟩
  match x, y with
  | .G a, .G b =>
    obtain ⟨hab, htail⟩ := List.cons.inj h
    cases hab
    exact ⟨rfl, htail⟩
  | .G a, .SS | .G a, .B0 | .G a, .B1 | .SS, .G b | .B0, .G b | .B1, .G b => cases congrArg List.head? h
  | .SS, .SS | .SS, .B0 | .SS, .B1 | .B0, .SS | .B0, .B0 | .B0, .B1 | .B1, .SS | .B1, .B0 | .B1, .B1 => exact symbols rfl rfl

theorem expandOne_ne_nil (x : Sym) : expandOne x ≠ [] := by
  cases x <;> exact List.cons_ne_nil _ _

/-- Settles O22: the elements are read off one by one, since the next one never begins with the low level of a pause. -/
theorem expandIsInjective : Obligations.ExpandIsInjective := by
  intro l
  induction l with
  | nil =>
    intro m h
    cases m with
    | nil => rfl
    | cons y m => exact absurd (List.append_eq_nil_iff.1 ((expand_cons y m).symm.trans h.symm)).1 (expandOne_ne_nil y)
  | cons x l ih =>
    intro m h
    cases m with
    | nil => exact absurd (List.append_eq_nil_iff.1 ((expand_cons x l).symm.trans h)).1 (expandOne_ne_nil x)
    | cons y m =>
      rw [expand_cons, expand_cons] at h
      obtain ⟨rfl, htail⟩ := expandOne_append_inj (head?_expand_ne_low l) (head?_expand_ne_low m) h
      rw [ih m htail]

/-! ### Sizes -/

theorem length_expandOne_symbol {x : Sym} (h : x.isSymbol = true) : (expandOne x).length = 12 + 2 * x.pause := by
  rw [expandOne_symbol h, List.length_append, List.length_replicate]
  rfl

/-- Six of a symbol's events are high, whatever its pause (R90). -/
theorem count_high_expandOne (x : Sym) : (expandOne x).count .H = if x.isSymbol = true then 6 else 0 := by
  cases x with
  | G ms => rfl
  | _ => simp [expandOne, Sym.isSymbol, List.count_replicate, List.replicate]

/-- A symbol trace has six high events for each of its symbols (R90). -/
theorem count_high_expand (l : List Sym) : (expand l).count .H = 6 * (withoutGaps l).length := by
  induction l with
  | nil => rfl
  | cons x l ih =>
    rw [expand_cons, List.count_append, ih, count_high_expandOne, withoutGaps, withoutGaps, List.filter_cons]
    split
    · rw [List.length_cons]
      omega
    · omega

/-- The bits `f (n-1)` down to `f 0` (R42). -/
def msbFirst (f : Nat → Bool) (n : Nat) : List Bool := (List.range n).map fun k => f (n - 1 - k)

@[simp] theorem length_msbFirst (f : Nat → Bool) (n : Nat) : (msbFirst f n).length = n := by simp [msbFirst]

/-- The order of the bits does not matter to the number of ones. -/
theorem count_true_msbFirst (f : Nat → Bool) (n : Nat) : (msbFirst f n).count true = ((List.range n).filter f).length := by
  have hrev : msbFirst f n = (List.range n).reverse.map f := by
    rw [List.range_eq_range', List.reverse_range', List.map_map]
    simp [msbFirst, Function.comp_def]
  rw [hrev, List.count, List.countP_map, List.countP_reverse, ← List.countP_eq_length_filter]
  simp [Function.comp_def]

/-- The length of a row of data bits, from its length and its ones (R92). -/
theorem length_expand_bits (bs : List Bool) : (expand (bs.map bitSym)).length =
    12 * bs.length + 2 * (bs.count true * Config.pause1 + (bs.length - bs.count true) * Config.pause0) := by
  induction bs with
  | nil => simp
  | cons v bs ih =>
    have hle : bs.count true ≤ bs.length := List.count_le_length
    rw [List.map_cons, expand_cons, List.length_append, ih, length_expandOne_symbol (isSymbol_bitSym v), List.length_cons]
    cases v with
    | true =>
      simp only [bitSym, Sym.pause, List.count_cons_self, if_true, Nat.add_sub_add_right, Nat.add_mul]
      omega
    | false =>
      simp only [bitSym, Sym.pause, List.count_cons_of_ne (Bool.false_ne_true), Bool.false_eq_true, if_false,
        Nat.sub_add_comm hle, Nat.add_mul]
      omega

theorem nibbleSyms_eq_msbFirst (n : Value) : nibbleSyms n = (msbFirst n.getLsbD 4).map bitSym := rfl

theorem frameSyms_eq_msbFirst (w : PacketWord) : frameSyms w = [.SS] ++ (msbFirst w.getLsbD 16).map bitSym ++ [.SS] := by
  simp [frameSyms, msbFirst]

/-- The length of a frame's trace (R105). -/
theorem length_expand_frameSyms (w : PacketWord) : (expand (frameSyms w)).length =
    216 + 2 * (2 * Config.pauseSS + ones w * Config.pause1 + (16 - ones w) * Config.pause0) := by
  rw [frameSyms_eq_msbFirst, expand_append, expand_append, List.length_append, List.length_append, length_expand_bits,
    length_msbFirst, count_true_msbFirst]
  have hSS : (expand [.SS]).length = 12 + 2 * Config.pauseSS := by
    rw [expand_cons, expand_nil, List.append_nil, length_expandOne_symbol rfl]
    rfl
  rw [hSS]
  show _ = 216 + 2 * (2 * Config.pauseSS + ((List.range 16).filter w.getLsbD).length * Config.pause1 +
    (16 - ((List.range 16).filter w.getLsbD).length) * Config.pause0)
  omega

/-- Settles O27: eighteen symbols of twelve mark events, half of them high, and each its own pause. -/
theorem frameTraceHasTheR105Size : Obligations.FrameTraceHasTheR105Size := fun w =>
  ⟨length_expand_frameSyms w, by rw [count_high_expand, withoutGaps_frameSyms, length_frameSyms]⟩

/-! ### Symbols, bits and nibbles -/

theorem bitSym_inj {u v : Bool} (h : bitSym u = bitSym v) : u = v := by
  match u, v with
  | true, true | false, false => rfl
  | true, false | false, true => cases h

/-- The symbols of a nibble determine it (R93). -/
theorem nibbleSyms_inj {n m : Value} (h : nibbleSyms n = nibbleSyms m) : n = m := by
  simp only [nibbleSyms, List.cons.injEq, and_true] at h
  obtain ⟨h3, h2, h1, h0⟩ := h
  refine BitVec.eq_of_getLsbD_eq fun k hk => ?_
  match k, hk with
  | 0, _ => exact bitSym_inj h0
  | 1, _ => exact bitSym_inj h1
  | 2, _ => exact bitSym_inj h2
  | 3, _ => exact bitSym_inj h3

/-- Settles O21: a nibble goes out as its four bit symbols, which the pin trace determines. -/
theorem nibbleSendsMostSignificantBitFirst : Obligations.NibbleSendsMostSignificantBitFirst := by
  intro n s l
  have hl : l = nibbleSyms n := rfl
  refine ⟨?sent, ?size, fun m hm => nibbleSyms_inj (hl ▸ expandIsInjective _ _ hm)⟩
  case sent =>
    rw [hl, ← nibbleEvents_eq_expand]
    rfl
  case size => rw [hl, nibbleSyms_eq_msbFirst, length_expand_bits, length_msbFirst, count_true_msbFirst]

/-- Settles O17: the six cycles are the model's own, evaluated. -/
theorem markSendsSixCycles : Obligations.MarkSendsSixCycles := fun _ => rfl

/-- Settles O18: SYMBOL appends a mark, which is six carrier cycles, and the low events of its pause. -/
theorem symbolSendsMarkThenPause : Obligations.SymbolSendsMarkThenPause := by
  intro p s
  refine ⟨symbolEvents p, rfl, rfl, ?_⟩
  rw [symbolEvents, List.length_append, List.length_replicate]
  rfl

/-- A symbol is appended as a mark and then its pause (R91). -/
theorem emitAll_symbolEvents (p : Nat) (s : State) : emitAll (symbolEvents p) s =
    { emitAll markEvents s with pending := (emitAll markEvents s).pending ++ List.replicate (2 * p) .L } := by
  simp [emitAll, symbolEvents]

/-- Settles O19: each symbol row appends the events of MARK and then those of its pause. -/
theorem threeSymbolsDifferInTheirPause : Obligations.ThreeSymbolsDifferInTheirPause := by
  intro s
  have h01 := pause0_lt_pause1
  have h1S := pause1_lt_pauseSS
  exact ⟨emitAll markEvents s, markEvents, rfl, rfl, rfl, congrArg _ (emitAll_symbolEvents ..), congrArg _ (emitAll_symbolEvents ..),
    congrArg _ (emitAll_symbolEvents ..), by omega, by omega, by omega⟩

/-- Settles O20: a bit goes out as its symbol, and the two symbols differ by their pauses only. -/
theorem bitSendsItsSymbol : Obligations.BitSendsItsSymbol := by
  have sent (v : Bool) (s : State) : exec (.bit v) s = .next (emitAll (expand [bitSym v]) s) := by
    rw [expand_cons, expand_nil, List.append_nil, ← bitEvents_eq_expandOne]
    rfl
  refine fun s => ⟨sent false s, sent true s, ?_⟩
  have h01 := pause0_lt_pause1
  rw [expand_cons, expand_cons, expand_nil, List.append_nil, List.append_nil, length_expandOne_symbol rfl,
    length_expandOne_symbol rfl]
  simp only [Sym.pause]
  omega

/-! ### Packets -/

/-- A packet word is the layout of its fields with the required checksum (R63). -/
theorem packetWord_eq_encodePacket (code : BitVec 2) (b a : Value) :
    packetWord code b a = encodePacket code b a (requiredChecksum code b a) := rfl

/-- Settles O26: the word sent is the packet word of the operands, with the properties of every packet word. -/
theorem everyPacketSentHasTheR104Properties : Obligations.EveryPacketSentHasTheR104Properties := by
  intro i b a s
  have hxor := packetWord_nibblesXorToF (channelCode i) (b.setWidth 4) (a.setWidth 4)
  refine ⟨_, exec_encodeAndSend_frame i b a s, hxor, ?recomputed, packetWord_code .., packetWord_outB .., packetWord_outA ..,
    ?top, ones_of_nibblesXorToF hxor⟩
  case recomputed => rw [packetWord_code, packetWord_outB, packetWord_outA]
  case top => rw [and_mask_eq_iff_top, packetWord_eq_encodePacket, encodePacket_top]

/-- A channel code is that of the channel one above it (R67). -/
theorem channelCode_ofNat (code : BitVec 2) : channelCode ⟨code.toNat, code.isLt⟩ = code := BitVec.ofNat_toNat ..

/-- Settles O28: the frame of a word with the right checksum is the packet of its fields. -/
theorem packetRowIsWhatEncodeAndSendSends : Obligations.PacketRowIsWhatEncodeAndSendSends := by
  intro code b a l s
  have hcheck : 0xF#4 ^^^ (0b01#2 ++ code) ^^^ b ^^^ a = checksum (nibble1 code) b a := (checksum_nibble1 code b a).symm
  refine ⟨fun hl => ?right, fun hl => if_neg (hcheck ▸ hl)⟩
  have hsent : exec (.pktComboPwm code b a l) s = .next (emitAll (expand (frameSyms (encodePacket code b a l))) s) := by
    rw [← frameEvents_eq_expand]
    exact if_pos (hl.trans hcheck)
  refine ⟨hsent, hsent.trans ?_⟩
  have hb : (b.setWidth 8).setWidth 4 = b := BitVec.setWidth_setWidth_of_le b (by decide)
  have ha : (a.setWidth 8).setWidth 4 = a := BitVec.setWidth_setWidth_of_le a (by decide)
  have henc := exec_encodeAndSend_frame ⟨code.toNat, code.isLt⟩ (b.setWidth 8) (a.setWidth 8) s
  rw [channelCode_ofNat, hb, ha, packetWord_eq_encodePacket, show requiredChecksum code b a = l from hl.symm] at henc
  exact henc.symm

/-- Settles O24: such a channel has no index. -/
theorem encodeAndSendRefusesOtherChannels : Obligations.EncodeAndSendRefusesOtherChannels := by
  intro c b a s h
  simp only [exec, execEncodeAndSend, channelIndex_eq_none.2 (show c < 1 ∨ 4 < c by omega)]

/-! ### The bound on an accepted trace -/

/-- The length of a packet with twelve ones, the most any packet has (R104, R105). -/
def longestPacket : Nat := 216 + 4 * Config.pauseSS + 24 * Config.pause1 + 8 * Config.pause0

/-- No packet is longer, since a 1 is longer than a 0 (R185). -/
theorem length_expand_packet_le (code : BitVec 2) (b a : Value) :
    (expand (frameSyms (packetWord code b a))).length ≤ longestPacket := by
  obtain ⟨-, -, hle⟩ := ones_of_nibblesXorToF (packetWord_nibblesXorToF code b a)
  rw [length_expand_frameSyms, longestPacket]
  obtain ⟨k, hk⟩ := Nat.exists_eq_add_of_le hle
  have h01 := Nat.mul_le_mul_left k (Nat.le_of_lt pause0_lt_pause1)
  have hzeros : 16 - ones (packetWord code b a) = 4 + k := by omega
  have htwelve : 12 * Config.pause1 = ones (packetWord code b a) * Config.pause1 + k * Config.pause1 := by
    rw [hk, Nat.add_mul]
  rw [hzeros, Nat.add_mul]
  omega

theorem length_expand_item_le {x : OutItem} (h : x.isPacket = true) : (expand x.syms).length ≤ longestPacket := by
  cases x with
  | packet code b a => exact length_expand_packet_le code b a
  | gap ms => cases h

@[simp] theorem isPacket_packet (code : BitVec 2) (b a : Value) : (OutItem.packet code b a).isPacket = true := rfl

@[simp] theorem isPacket_gap (ms : Nat) : (OutItem.gap ms).isPacket = false := rfl

/-- A waveform is no longer than its packets allow, and one event for each gap (R185). -/
theorem length_expand_items_le (items : List OutItem) : (expand (items.flatMap OutItem.syms)).length ≤
    (items.filter fun x => x.isPacket).length * longestPacket + (items.filter fun x => !x.isPacket).length := by
  induction items with
  | nil => exact Nat.zero_le _
  | cons x items ih =>
    rw [List.flatMap_cons, expand_append, List.length_append, List.filter_cons, List.filter_cons]
    cases x with
    | packet code b a =>
      have hx := length_expand_packet_le code b a
      simp only [OutItem.syms, isPacket_packet, if_true, Bool.not_true, Bool.false_eq_true, if_false, List.length_cons,
        Nat.add_mul]
      omega
    | gap ms =>
      have hx : (expand [.G ms]).length = 1 := rfl
      simp only [syms_gap, isPacket_gap, if_true, Bool.not_false, Bool.false_eq_true, if_false, List.length_cons, hx]
      omega

/-- A trace of so many packets and gaps is bounded (R185). -/
theorem LegalTrace.length_le {packets gaps : Nat} {es : List Event} (h : LegalTrace packets gaps es) :
    es.length ≤ packets * longestPacket + gaps := by
  obtain ⟨items, rfl, hp, hg⟩ := h
  exact (length_expand_items_le items).trans (Nat.add_le_add (Nat.mul_le_mul_right _ hp) hg)

/-- Settles O52: the pending trace is the accepted operation's own, of at most four packets and three gaps for REFRESH_ALL
and three and two for every other. -/
theorem acceptedTraceIsBounded : Obligations.AcceptedTraceIsBounded := by
  intro i s t hi _ h
  obtain ⟨-, -, htrace⟩ := exec_external_trace hi h
  obtain ⟨items, hitems, hp, hg⟩ := id htrace
  refine ⟨items, hitems, fun x _ hx => length_expand_item_le hx, hp, hg, htrace.length_le.trans (Nat.le_of_eq ?_)⟩
  split <;> rfl

end Sys2Proof.Machine

/-!
PROOFS. The cache and the operations over it (R110 to R128), what every operation leaves unchanged, and reset, acceptance and the step.
-/
namespace Sys2Proof.Machine

/-! ### GET, SEND_CHANNEL, REFRESH_ALL and RESET -/

/-- Settles O29: a legal channel has an index, and any other has none. -/
theorem getReturnsTheCell : Obligations.GetReturnsTheCell := by
  refine fun c p s => ⟨fun i hc => exec_get_legal p s (channelIndex_eq_some.2 hc), fun hc => ?_⟩
  simp only [exec, execGet, getResult, channelIndex_eq_none.2 (show c < 1 ∨ 4 < c by omega)]
  rfl

/-- SEND_CHANNEL of a legal channel appends its packets and reports `ok` (R124). -/
theorem exec_sendChannel_legal {c : Nat} {i : Fin 4} (hi : channelIndex c = some i) (r d : Nat) (s : State) :
    exec (.sendChannel c r d) s = .next (report .ok (emitAll (sendEvents s.cache i r d) s)) := by
  simp only [exec, execSendChannel, sendChannel, hi]

theorem emitAll_nil (s : State) : emitAll [] s = s := by simp [emitAll]

/-- No repeats send nothing (R124). -/
theorem exec_sendChannel_zero {c : Nat} {i : Fin 4} (hi : channelIndex c = some i) (d : Nat) (s : State) :
    exec (.sendChannel c 0 d) s = .next (report .ok s) := by
  rw [exec_sendChannel_legal hi, sendEvents, emitAll_nil]

/-- Settles O40: the loop of SEND_CHANNEL in closed form. -/
theorem sendChannelSendsRepeatedPackets : Obligations.SendChannelSendsRepeatedPackets := by
  refine fun c d s => ⟨fun i hc => ?legal, fun hc r => ?illegal⟩
  case legal =>
    have hi := channelIndex_eq_some.2 hc
    refine ⟨exec_sendChannel_zero hi d s, fun n => ?_⟩
    rw [exec_sendChannel_legal hi, sendEvents_succ_eq_expand]
    rfl
  case illegal =>
    obtain ⟨i, hi, -⟩ | ⟨-, h⟩ := exec_sendChannel_cases c r d s
    · have := channelIndex_eq_some.1 hi
      omega
    · exact h

/-- Settles O41: the trace is that of the cached cells, which SEND_CHANNEL does not write. -/
theorem sendChannelIsIdempotent : Obligations.SendChannelIsIdempotent := by
  intro c r d s t u ht hu
  obtain ⟨i, hi, hs⟩ | ⟨hn, hs⟩ := exec_sendChannel_cases c r d s
  · rw [hs] at ht
    cases ht
    rw [exec_sendChannel_legal hi] at hu
    cases hu
    exact ⟨_, rfl, rfl, rfl⟩
  · rw [hs] at ht
    cases ht
    obtain ⟨i, hi, -⟩ | ⟨-, hs'⟩ := exec_sendChannel_cases c r d (rejection .invalidChannel s)
    · cases hn.symm.trans hi
    · rw [hs'] at hu
      cases hu
      exact ⟨[], by simp, by simp, rfl⟩

/-- Settles O42: the loop of REFRESH_ALL in closed form, on an empty pending trace. -/
theorem refreshSendsEveryChannelOnce : Obligations.RefreshSendsEveryChannelOnce := by
  intro s hs
  rw [exec_refreshAll_idle hs, refreshEvents_eq_expand, emitAll, hs, List.nil_append]
  rfl

/-- Settles O44: an idle encoder accepts construction. -/
theorem resetOfAnIdleEncoderConstructsIt : Obligations.ResetOfAnIdleEncoderConstructsIt := fun _ hs => acceptWhenIdle_idle hs ..

/-! ### APPLY -/

/-- Settles O37: either length decodes to the same operands, and an accepted command sends its three packets. -/
theorem acceptedCommandWritesThenSendsThreePackets : Obligations.AcceptedCommandWritesThenSendsThreePackets := by
  intro i c v p s hs hc hv cache f t
  have happlied : applied i c p v s = t := by
    rw [applied, show s.pending = [] from hs, List.nil_append, sendEvents_apply_eq_expand]
  have happly {cmd : List Byte} (ho : commandOperands cmd = .ok (c, p, v)) :
      acceptWhenIdle .busy s (applyCommand cmd s) = .next t := by
    rw [acceptWhenIdle_idle hs, applyCommand_applied s ho (channelIndex_eq_some.2 hc) hv, happlied]
  have h3 := happly (commandOperands_portByte c v p)
  have h4 := happly (commandOperands_comboPwm c v p)
  refine ⟨fun hp => ?_, fun hp => ?_⟩ <;> rw [hp] at h3 h4 <;> exact ⟨h3, h4⟩

/-- Settles O38: the mode is checked before port, channel and value. -/
theorem otherModesAreRejected : Obligations.OtherModesAreRejected := by
  intro c v m s hs hm
  have hreject (b : Byte) : acceptWhenIdle .busy s (applyCommand [c, b, v, m] s) = .next (rejection .invalidMode s) := by
    have hv : verdict [c, b, v, m] = some .invalidMode := by simp [verdict, hm]
    rw [acceptWhenIdle_idle hs, applyCommand_of_verdict_some hv]
  exact ⟨hreject _, hreject _⟩

/-! ### Which cells change -/

/-- A write changes its own cell only. -/
theorem eq_of_readCell_writeCell_ne {c : Cache} {i j : Fin 4} {p q : Port} {v : Value}
    (h : readCell (writeCell c i p v) j q ≠ readCell c j q) : j = i ∧ q = p :=
  Prod.mk.inj (not_not.1 fun hne => h (readCell_writeCell_other c v hne))

theorem encode_external (i : Instr) : (encode i).external = i.external := by
  cases i <;> rfl

/-- A well-formed operation selected from outside is what some request of the environment selects (R77). -/
theorem exists_request_of_external {i : Instr} (hw : i.wellFormed = true) (hx : i.external = true) :
    ∃ r : Request, r.external = true ∧ i = decode r :=
  ⟨encode i, (encode_external i).trans hx, (decodeOfEncodeIsTheOperation i hw).symm⟩

/-- A command that changes a cell is the three-byte or the four-byte one of that cell and its new value (R32, R120). -/
theorem command_of_cell_change {cmd : List Byte} {s : State} {j : Fin 4} {q : Port}
    (h : readCell (applyCommand cmd s).cache j q ≠ readCell s.cache j q) :
    ∃ c v : Byte, c.toNat = j.val + 1 ∧ v.toNat ≤ 15 ∧ readCell (applyCommand cmd s).cache j q = v.setWidth 4 ∧
      (cmd = [c, portByte q, v] ∨ cmd = [c, portByte q, v, Config.modeComboPwm]) := by
  obtain ⟨r, hr⟩ | ⟨c, p, v, i, ho, hi, hv, ha⟩ := applyCommand_cases cmd s
  · rw [hr] at h
    exact absurd rfl h
  · rw [ha, applied_cache] at h ⊢
    obtain ⟨rfl, rfl⟩ := eq_of_readCell_writeCell_ne h
    obtain ⟨b, hb, hcmd⟩ := commandOperands_ok ho
    rw [portOf_eq_some.1 hb] at hcmd
    exact ⟨c, v, channelIndex_eq_some.1 hi, hv, readCell_writeCell_same .., hcmd⟩

/-- Settles O31: of the requests only a command and a reset write cells, and of the direct calls only SET. -/
theorem cellsChangeOnlyBySetOrReset : Obligations.CellsChangeOnlyBySetOrReset := by
  intro i s t j q hw h hne
  by_cases hx : i.external = true
  · obtain ⟨r, hr, rfl⟩ := exists_request_of_external hw hx
    cases r with
    | command cmd =>
      rw [exec_command] at h
      obtain ⟨-, rfl⟩ := acceptWhenIdle_next h
      obtain ⟨c, v, hc, hv, hcell, rfl | rfl⟩ := command_of_cell_change hne
      · exact .inr ⟨c, v, hc, hv, hcell, .inr (.inl rfl)⟩
      · exact .inr ⟨c, v, hc, hv, hcell, .inr (.inr rfl)⟩
    | tick =>
      obtain ⟨-, rfl⟩ := acceptWhenIdle_next h
      exact absurd rfl hne
    | reset =>
      obtain ⟨-, rfl⟩ := acceptWhenIdle_next h
      exact .inl ⟨rfl, readCell_reset j q⟩
    | call i => cases hr
  · obtain ⟨-, es, rfl⟩ | ⟨-, r, rfl⟩ | ⟨-, he, -⟩ | ⟨-, rfl, -⟩ | ⟨-, rfl, -⟩ | ⟨c, p, v, k, rfl, hk, hv, rfl⟩ |
      ⟨c, r, d, k, -, -, rfl⟩ := exec_cases h
    · exact absurd rfl hne
    · exact absurd rfl hne
    · exact absurd he hx
    · exact absurd rfl hx
    · exact absurd rfl hx
    · obtain ⟨rfl, rfl⟩ := eq_of_readCell_writeCell_ne hne
      exact .inr ⟨c, v, channelIndex_eq_some.1 hk, hv, readCell_writeCell_same .., .inl rfl⟩
    · exact absurd rfl hne

/-! ### What every operation leaves unchanged -/

/-- The operation drives no pin and takes no request, and what it adds to results and pending events comes after what was there. -/
structure OnlyAppends (s t : State) : Prop where
  requests : t.requests = s.requests
  emitted : t.emitted = s.emitted
  pin : t.pin = s.pin
  results : ∃ rs, t.results = s.results ++ rs
  pending : ∃ es, t.pending = s.pending ++ es

theorem onlyAppends_emitAll (es : List Event) (s : State) : OnlyAppends s (emitAll es s) :=
  ⟨rfl, rfl, rfl, ⟨[], by simp⟩, ⟨es, rfl⟩⟩

theorem onlyAppends_report (r : Result) (s : State) : OnlyAppends s (report r s) :=
  ⟨rfl, rfl, rfl, ⟨[r], rfl⟩, ⟨[], by simp⟩⟩

theorem onlyAppends_report_emitAll (r : Result) (es : List Event) (s : State) : OnlyAppends s (report r (emitAll es s)) :=
  ⟨rfl, rfl, rfl, ⟨[r], rfl⟩, ⟨es, rfl⟩⟩

theorem onlyAppends_applyCommand (cmd : List Byte) (s : State) : OnlyAppends s (applyCommand cmd s) := by
  obtain ⟨r, hr⟩ | ⟨c, p, v, i, -, -, -, ha⟩ := applyCommand_cases cmd s
  · rw [hr]
    exact onlyAppends_report _ s
  · rw [ha]
    exact ⟨rfl, rfl, rfl, ⟨_, rfl⟩, ⟨_, rfl⟩⟩

/-- Every operation but RESET only appends (R23, R24). -/
theorem exec_onlyAppends {i : Instr} {s t : State} (h : exec i s = .next t) : (i = .reset ∧ t = construct s) ∨ OnlyAppends s t := by
  obtain ⟨-, es, rfl⟩ | ⟨-, r, rfl⟩ | ⟨-, -, -, cmd, rfl, -⟩ | ⟨-, hi, rfl⟩ | ⟨-, -, rfl⟩ | ⟨c, p, v, j, -, -, -, rfl⟩ |
    ⟨c, r, d, j, -, -, rfl⟩ := exec_cases h
  · exact .inr (onlyAppends_emitAll es s)
  · exact .inr (onlyAppends_report r s)
  · exact .inr (onlyAppends_applyCommand cmd s)
  · exact .inl ⟨hi, rfl⟩
  · exact .inr (onlyAppends_report_emitAll ..)
  · exact .inr ⟨rfl, rfl, rfl, ⟨_, rfl⟩, ⟨[], by simp⟩⟩
  · exact .inr (onlyAppends_report_emitAll ..)

/-- Outside APPLY, SET and RESET no operation writes a cell or the echo (R23, R29). -/
theorem exec_keeps_cache {i : Instr} {s t : State} (hm : i.mayWrite = false) (hr : ∀ bytes, i ≠ .applyReject bytes)
    (h : exec i s = .next t) : t.cache = s.cache ∧ t.last = s.last := by
  obtain ⟨-, es, rfl⟩ | ⟨-, r, rfl⟩ | ⟨-, hx, -, cmd, -, -⟩ | ⟨-, rfl, -⟩ | ⟨-, -, rfl⟩ | ⟨c, p, v, j, rfl, -⟩ |
    ⟨c, r, d, j, -, -, rfl⟩ := exec_cases h
  · exact ⟨rfl, rfl⟩
  · exact ⟨rfl, rfl⟩
  · cases i with
    | refreshAll =>
      obtain ⟨-, rfl⟩ := acceptWhenIdle_next h
      exact ⟨rfl, rfl⟩
    | applyReject bytes => exact absurd rfl (hr bytes)
    | applyA3 _ _ | applyB3 _ _ | applyA4 _ _ _ | applyB4 _ _ _ | reset => cases hm
    | _ => cases hx
  · cases hm
  · exact ⟨rfl, rfl⟩
  · cases hm
  · exact ⟨rfl, rfl⟩

/-- A well-formed APPLY.REJECT writes nothing either: its bytes fail a check (R71, R150). -/
theorem exec_applyReject_keeps_cache {bytes : List Byte} {s t : State} (hu : unmatchedCommand bytes = true)
    (h : exec (.applyReject bytes) s = .next t) : t.cache = s.cache ∧ t.last = s.last := by
  obtain ⟨-, rfl⟩ := acceptWhenIdle_next h
  rw [applyCommand_of_verdict_some (verdict_unmatched hu)]
  exact ⟨rfl, rfl⟩

/-- Settles O47: what may be written, and what is only appended to. -/
theorem operationsKeepWhatTheyDoNotWrite : Obligations.OperationsKeepWhatTheyDoNotWrite := by
  intro i s t hw h
  have hcache : i.mayWrite = false → t.cache = s.cache ∧ t.last = s.last := fun hm => by
    by_cases hr : ∃ bytes, i = .applyReject bytes
    · obtain ⟨bytes, rfl⟩ := hr
      exact exec_applyReject_keeps_cache hw h
    · exact exec_keeps_cache hm (fun bytes e => hr ⟨bytes, e⟩) h
  obtain ⟨rfl, rfl⟩ | ha := exec_onlyAppends h
  · exact ⟨hcache, rfl, rfl, ⟨[], by simp⟩, fun hn => absurd rfl hn⟩
  · exact ⟨hcache, ha.requests, ha.emitted, ha.results, fun _ => ⟨ha.pin, ha.pending⟩⟩

/-! ### The target of an operation -/

/-- The cache after an operation is the one before, with the target written if there is one (R23). -/
def TargetWritten (target : Option (Fin 4 × Port × Value)) (c d : Cache) : Prop :=
  (target = none ∧ d = c) ∨ ∃ i p v, target = some (i, p, v) ∧ d = writeCell c i p v

theorem TargetWritten.cache_eq {c d : Cache} (h : TargetWritten none c d) : d = c := by
  obtain ⟨-, h⟩ | ⟨i, p, v, h, -⟩ := h
  · exact h
  · cases h

theorem TargetWritten.readCell {i : Fin 4} {p : Port} {v : Value} {c d : Cache} (h : TargetWritten (some (i, p, v)) c d) :
    readCell d i p = v ∧ ∀ j q, (j, q) ≠ (i, p) → readCell d j q = readCell c j q := by
  obtain ⟨h, -⟩ | ⟨j, q, w, h, rfl⟩ := h
  · cases h
  · cases h
    exact ⟨readCell_writeCell_same .., fun j q hne => readCell_writeCell_other _ _ hne⟩

theorem targetWritten_apply {cmd : List Byte} {s t : State} (h : acceptWhenIdle .busy s (applyCommand cmd s) = .next t) :
    TargetWritten (commandTarget cmd) s.cache t.cache := by
  obtain ⟨-, rfl⟩ := acceptWhenIdle_next h
  obtain ⟨i, c, p, v, ht, ha⟩ | ⟨ht, r, hr⟩ := applyCommand_target cmd s
  · rw [ha]
    exact .inr ⟨i, p, v.setWidth 4, ht, rfl⟩
  · rw [hr]
    exact .inl ⟨ht, rfl⟩

theorem targetWritten_set {c v : Byte} {p : Port} {s t : State} (h : exec (.set c p v) s = .next t) :
    TargetWritten (setTarget c p v) s.cache t.cache := by
  obtain ⟨i, ht, hs⟩ | ⟨ht, r, hs⟩ := setCell_target c p v s <;> simp only [exec, execSet, hs] at h <;> cases h
  · exact .inr ⟨i, p, v.setWidth 4, ht, rfl⟩
  · exact .inl ⟨ht, rfl⟩

/-- An operation other than RESET writes its target and no other cell (R23, R45). -/
theorem exec_targetWritten {i : Instr} {s t : State} (hr : i ≠ .reset) (h : exec i s = .next t) :
    TargetWritten i.target s.cache t.cache := by
  cases i with
  | applyA3 _ _ | applyB3 _ _ | applyA4 _ _ _ | applyB4 _ _ _ | applyReject _ => exact targetWritten_apply h
  | set c p v => exact targetWritten_set h
  | reset => exact absurd rfl hr
  | _ => exact .inl ⟨rfl, (exec_keeps_cache rfl (by simp) h).1⟩

/-- Settles O48: only an accepted request writes, and it writes its target. -/
theorem stepChangesAtMostOneCell : Obligations.StepChangesAtMostOneCell := by
  intro s t h
  refine ⟨fun hidle => ?quiet, fun r rs hp hr => ?accepts⟩
  case quiet =>
    obtain ⟨e, rest, -, rfl⟩ | ⟨-, -, rfl⟩ | ⟨r, rs, hp, hr, -⟩ := step_cases h
    · rfl
    · rfl
    · obtain hb | hn := hidle
      · exact absurd hp hb
      · cases hr.symm.trans hn
  case accepts =>
    have he := (step_idle hp hr).symm.trans h
    refine ⟨?tick, ?command, fun hne => ?target⟩
    case tick =>
      rintro rfl
      exact (exec_keeps_cache rfl (by simp [decode]) he).1
    case command =>
      rintro cmd reason rfl hres
      rw [(rejectionLeavesNoMark cmd _ t reason he hres).1]
    case target =>
      have hw := exec_targetWritten hne he
      exact ⟨fun ht => (ht ▸ hw).cache_eq, fun i p v ht => (ht ▸ hw).readCell⟩

end Sys2Proof.Machine

/-!
PROOFS. Operations as sequences of others (R76), and the state after reset, acceptance and the single step (R24, R30, R147).
-/
namespace Sys2Proof.Machine

/-! ### Expansions -/

@[simp] theorem emitAll_emitAll (es fs : List Event) (s : State) : emitAll fs (emitAll es s) = emitAll (es ++ fs) s := by
  simp [emitAll]

@[simp] theorem andThen_next (s : State) (f : State → Host.Outcome State Fault Refusal) : andThen (.next s) f = f s := rfl

/-- A row of senders appends their traces one after another (R76). -/
theorem execAll_cons_of_emitAll {i : Instr} {es : List Event} {s : State} (h : exec i s = .next (emitAll es s)) (is : List Instr) :
    execAll (i :: is) s = execAll is (emitAll es s) := by
  rw [execAll, h, andThen_next]

/-- NIBBLE is four BITs, bit 3 first (R93). -/
theorem exec_nibble_eq_execAll (n : Value) (s : State) : exec (.nibble n) s =
    execAll [.bit (n.getLsbD 3), .bit (n.getLsbD 2), .bit (n.getLsbD 1), .bit (n.getLsbD 0)] s := by
  have hbit (v : Bool) (t : State) : exec (.bit v) t = .next (emitAll (bitEvents v) t) := rfl
  have hnibble : exec (.nibble n) s = .next (emitAll (nibbleEvents n) s) := rfl
  simp only [hnibble, execAll, hbit, andThen_next, emitAll_emitAll, nibbleEvents, bitsEvents, List.append_nil]

/-- ENCODE_AND_SEND is a start symbol, four NIBBLEs and a stop symbol (R100). -/
theorem exec_encodeAndSend_eq_execAll (i : Fin 4) (b a : Byte) (s : State) : exec (.encodeAndSend (i.val + 1) b a) s =
    execAll [.symbol Config.pauseSS, .nibble (nibble1 (channelCode i)), .nibble (b.setWidth 4), .nibble (a.setWidth 4),
      .nibble (checksum (nibble1 (channelCode i)) (b.setWidth 4) (a.setWidth 4)), .symbol Config.pauseSS] s := by
  have hsymbol (p : Nat) (t : State) : exec (.symbol p) t = .next (emitAll (symbolEvents p) t) := rfl
  have hnibble (n : Value) (t : State) : exec (.nibble n) t = .next (emitAll (nibbleEvents n) t) := rfl
  have hsend : exec (.encodeAndSend (i.val + 1) b a) s =
      .next (emitAll (packetEvents (channelCode i) (b.setWidth 4) (a.setWidth 4)) s) := by
    rw [exec_encodeAndSend_frame, packetEvents_eq_expand]
  simp only [hsend, execAll, hsymbol, hnibble, andThen_next, emitAll_emitAll, packetEvents, List.append_assoc]

/-- ENCODE_AND_SEND of a channel's cached cells sends its packet (R124). -/
theorem exec_encodeAndSend_cached (i : Fin 4) (s : State) :
    exec (.encodeAndSend (i.val + 1) ((readCell s.cache i .b).setWidth 8) ((readCell s.cache i .a).setWidth 8)) s =
      .next (emitAll (channelPacket s.cache i) s) := by
  rw [exec_encodeAndSend_frame, BitVec.setWidth_setWidth_of_le _ (by decide), BitVec.setWidth_setWidth_of_le _ (by decide),
    channelPacket_eq_expand]
  rfl

/-- One packet of SEND_CHANNEL with no delay (R124, R126). -/
theorem exec_sendChannel_once {c : Nat} {i : Fin 4} (hi : channelIndex c = some i) (d : Nat) (s : State) :
    exec (.sendChannel c 1 d) s = .next (report .ok (emitAll (channelPacket s.cache i) s)) := exec_sendChannel_legal hi 1 d s

/-- SEND_CHANNEL is its packets with the delay between (R124). -/
theorem exec_sendChannel_succ {c : Nat} {i : Fin 4} (hi : channelIndex c = some i) (n d : Nat) (s : State) :
    exec (.sendChannel c (n + 2) d) s =
      exec (.sendChannel c (n + 1) d) (emitAll (delayEvents d) (emitAll (channelPacket s.cache i) s)) := by
  rw [exec_sendChannel_legal hi, exec_sendChannel_legal hi, emitAll_emitAll, emitAll_emitAll, emitAll_cache, emitAll_cache, sendEvents,
    List.append_assoc]

/-- REFRESH_ALL is SEND_CHANNEL of channels 1 to 4 with gaps between, its own result in place of theirs (R126). -/
theorem exec_refreshAll_eq_sends {s u : State} (hs : s.Idle)
    (h : andThen (exec (.sendChannel 1 1 0) s) (fun t1 =>
      andThen (exec (.sendChannel 2 1 0) (emitAll (delayEvents Config.refreshGapMs) t1)) (fun t2 =>
        andThen (exec (.sendChannel 3 1 0) (emitAll (delayEvents Config.refreshGapMs) t2)) (fun t3 =>
          exec (.sendChannel 4 1 0) (emitAll (delayEvents Config.refreshGapMs) t3)))) = .next u) :
    exec .refreshAll s = .next { u with results := s.results ++ [.ok] } := by
  simp only [exec_sendChannel_once (c := 1) (i := 0) rfl, exec_sendChannel_once (c := 2) (i := 1) rfl,
    exec_sendChannel_once (c := 3) (i := 2) rfl, exec_sendChannel_once (c := 4) (i := 3) rfl, andThen_next] at h
  cases h
  rw [exec_refreshAll_idle hs]
  have hrefresh : refreshEvents s.cache [0, 1, 2, 3] = channelPacket s.cache 0 ++ delayEvents Config.refreshGapMs ++
      (channelPacket s.cache 1 ++ delayEvents Config.refreshGapMs ++ (channelPacket s.cache 2 ++
        delayEvents Config.refreshGapMs ++ channelPacket s.cache 3)) := rfl
  simp [hrefresh, emitAll, report]

/-- APPLY that succeeds is SET and then SEND_CHANNEL, with the echo and its own result (R120). -/
theorem exec_command3_eq_set_send {c v : Byte} {p : Port} {s t u : State} (hs : s.Idle) (hset : exec (.set c p v) s = .next t)
    (hok : t.results = s.results ++ [.ok])
    (hsend : exec (.sendChannel c.toNat Config.applyRepeats Config.applyDelayMs) t = .next u) :
    exec (decode (.command [c, portByte p, v])) s = .next { u with
      last := if Config.hasEcho then some { channel := c, port := p, value := v.setWidth 4 } else s.last
      results := s.results ++ [.ok] } := by
  obtain ⟨i, hi, hv, h⟩ | ⟨r, h⟩ := exec_set_cases c p v s <;> rw [h] at hset <;> cases hset
  · rw [exec_sendChannel_legal hi] at hsend
    cases hsend
    exact exec_command3_applied p hs hi hv
  · simp at hok

/-- Settles O45: each part is the lemma about its operation. -/
theorem operationsAreTheirExpansions : Obligations.OperationsAreTheirExpansions := by
  refine ⟨fun p s => congrArg _ (emitAll_symbolEvents p s), fun s => ⟨rfl, rfl⟩, exec_nibble_eq_execAll,
    exec_encodeAndSend_eq_execAll, fun i n d s => ?sendChannel, fun s u => exec_refreshAll_eq_sends,
    fun c v p s t u => exec_command3_eq_set_send⟩
  case sendChannel =>
    have hi := channelIndex_succ i
    intro send
    have hsend : send = .next (emitAll (channelPacket s.cache i) s) := exec_encodeAndSend_cached i s
    rw [hsend]
    exact ⟨exec_sendChannel_zero hi d s, exec_sendChannel_once hi d s, exec_sendChannel_succ hi n d s⟩

/-! ### Reset and acceptance -/

/-- Settles O1: the cells read 0, and the rest is the definition of the reset state and of the constants. -/
theorem resetGivesEveryFieldItsValue : Obligations.ResetGivesEveryFieldItsValue :=
  ⟨readCell_reset, rfl, rfl, rfl, rfl, rfl, rfl, rfl, rfl, rfl, rfl, rfl, rfl, rfl, Nat.succ_pos _, pause0_lt_pause1,
    pause1_lt_pauseSS⟩

/-- Settles O2: the pin is low, and there are no events, no requests and no echo. -/
theorem resetMeetsTheInvariants : Obligations.ResetMeetsTheInvariants := by
  refine ⟨⟨⟨fun _ => rfl, by simp⟩, by simp, by simp⟩, by simp [State.ExternalOnly], ⟨[], rfl⟩, by simp [State.EchoMatchesCache]⟩

/-- Settles O3: by the rule for an idle step. -/
theorem idleStepRunsTheDecodedRequest : Obligations.IdleStepRunsTheDecodedRequest := fun _ _ _ => step_idle

/-- Settles O4: the placed request is the first of an idle state, and taking it away leaves the settled state. -/
theorem placedTableWordRunsNext : Obligations.PlacedTableWordRunsNext := by
  intro s nbits w i h
  have hi : decode (requestOfTableWord nbits w) = i := Option.some.inj h
  rw [step_idle (s := s.withFetchWord nbits w) rfl rfl, hi]
  rfl

/-- Settles O5: by the rule for an idle step without a request. -/
theorem idleStepWithoutRequestChangesNothing : Obligations.IdleStepWithoutRequestChangesNothing := fun _ => step_idle_nil

/-- Only the high event is high (R13). -/
theorem Event.level_eq (e : Event) : e.level = if e = .H then .high else .low := by
  cases e <;> rfl

/-- Settles O6: by the rule for a busy step, the pin at the level of the event. -/
theorem busyStepDrivesOneEvent : Obligations.BusyStepDrivesOneEvent := by
  intro s e rest h
  rw [step_busy h, driveEvent, Event.level_eq]

/-- Settles O11: every operation selected from outside waits for an idle encoder. -/
theorem busyEncoderAcceptsNothing : Obligations.BusyEncoderAcceptsNothing := by
  intro i s hx hb
  obtain ⟨cmd, hc, hr, -⟩ | rfl | rfl := exec_external hx
  · rw [hc, if_neg hr, acceptWhenIdle_busy hb]
  · exact acceptWhenIdle_busy hb ..
  · exact acceptWhenIdle_busy hb ..

end Sys2Proof.Machine
